-- ==== Sys2Proof/Word.lean ====
section
/-!
DEFINITION. The number types of the block: the command word, its operand fields, indices,
frequencies and bytes (30_encoding.md R55, R57; 00_scope.md R7, R10).

An index is held in 16 bits and a frequency in 32, the widest a well-formed configuration allows
(R12); a configuration with IDX_W < 16 or FREQ_W < 32 uses the low bits only.
-/

namespace Sys2Proof

/-- A command word, bit 63 the most significant (30_encoding.md R55). -/
abbrev Word := BitVec 64

/-- A symbol, node index, register number, bit operand or queue item id: the 16-bit field `a` of a
command word, and the width of an index at IDX_W = 16 (R7, R55). -/
abbrev Index := BitVec 16

/-- A frequency: the 32-bit field `b` of a command word, and FREQ_W = 32 (R10, R55). -/
abbrev Freq := BitVec 32

/-- The data field `d` of a response, and the width of a status register (R35, R57). -/
abbrev Data := BitVec 32

/-- A byte of the FLUSH output (R113). -/
abbrev Byte := BitVec 8

/-- A fault code, and the width of ERR (R30, R134). -/
abbrev Code := BitVec 4

end Sys2Proof
end

