-- ==== Sys2Proof/Config.lean ====
section
/-!
DEFINITION. The configuration of a block: the four open parameters of 92_eei_decisions.md (last
table) and their defaults (00_scope.md R6, R7, R10, R11). What they derive (NONE, the capacities,
well-formedness) is in Machine/Params.lean.

There is no free value: nothing in this spec is left open at run time (70_reset_and_hazards.md R169).
-/

namespace Sys2Proof

/-- The configuration (N, IDX_W, FREQ_W, BITBUF_CAP), fixed for one block (00_scope.md R12). -/
structure Config where
  /-- N = ALPHABET_SIZE, the number of symbols (R6). -/
  n : Nat
  /-- IDX_W, the width of a node index (R7). -/
  idxW : Nat
  /-- FREQ_W, the width of a frequency (R10). -/
  freqW : Nat
  /-- BITBUF_CAP, the largest number of bits the bit buffer holds (R11). -/
  bitbufCap : Nat
  deriving DecidableEq, Repr

/-- The default configuration, the one this hardware takes: N = 256, IDX_W = 16, FREQ_W = 32,
BITBUF_CAP = 2^32 - 1 (00_scope.md R6, R7, R10, R11). -/
def Config.default : Config :=
  { n := 256, idxW := 16, freqW := 32, bitbufCap := 4294967295 }

end Sys2Proof
end

