-- ==== Sys2Proof/Machine/Params.lean ====
section
/-!
DEFINITION. What a configuration derives: well-formedness (00_scope.md R12), the sentinel NONE (R8),
the capacities (R9), and narrowing to the widths IDX_W and FREQ_W (R7, R10, R13).
-/

namespace Sys2Proof

/-- The configuration check of 00_scope.md R12. Its failure is the source's CapacityExceeded, a
construction-time error: no block exists for such a configuration. ARENA_CAP = QUEUE_CAP = 2N holds
by `Config.arenaCap` and `Config.queueCap`. -/
def Config.wellFormed (c : Config) : Bool :=
  decide (1 ≤ c.n) && decide (2 * c.n ≤ 2 ^ (c.idxW - 1)) && decide (c.idxW ≤ 16) &&
    decide (c.freqW ≤ 32) && decide (1 ≤ c.bitbufCap) && decide (c.bitbufCap ≤ 2 ^ 32 - 1)

/-- A configuration for which a block exists (R12). -/
abbrev Config.WellFormed (c : Config) : Prop := c.wellFormed = true

/-- ARENA_CAP = 2N node entries (R9). -/
def Config.arenaCap (c : Config) : Nat := 2 * c.n

/-- QUEUE_CAP = 2N queue items (R9). -/
def Config.queueCap (c : Config) : Nat := 2 * c.n

/-- NONE = 2^IDX_W - 1, the sentinel "no node" (R8). -/
def Config.none (c : Config) : Index := BitVec.ofNat 16 (2 ^ c.idxW - 1)

/-- The largest frequency, 2^FREQ_W - 1 (R10, R70). -/
def Config.freqMax (c : Config) : Nat := 2 ^ c.freqW - 1

/-- A number as an IDX_W-bit index: its low IDX_W bits, which is what 30_encoding.md R56 keeps of a queue
item's id. DEDUCED for a node index or a count, which fits in every state that a run reaches (log
entry 6). -/
def Config.toIndex (c : Config) (k : Nat) : Index := BitVec.ofNat 16 (k % 2 ^ c.idxW)

/-- A number as a FREQ_W-bit frequency: its low FREQ_W bits, which is what 30_encoding.md R56 uses of a
queue item's frequency. DEDUCED for a count or a sum, which fits in every state that a run reaches
(R70, R90; log entry 6). -/
def Config.toFreq (c : Config) (k : Nat) : Freq := BitVec.ofNat 32 (k % 2 ^ c.freqW)

end Sys2Proof
end

