-- ==== Sys2Proof/Syntax.lean ====
section
/-!
DEFINITION. The thirteen commands (30_encoding.md R60), one constructor per row of the opcode table.
Operands are the word's fields as they stand, unsigned, with no sign extension or scaling (R56).
-/

namespace Sys2Proof

/-- One command (30_encoding.md R60). -/
inductive Instr where
  /-- 0x01 RESET: the whole block to its reset state (46_system.md R128). -/
  | reset
  /-- 0x02 RDSR n: read status register n (46_system.md R129). -/
  | rdsr (n : Index)
  /-- 0x10 ACC sym: count one symbol (40_histogram.md R70). -/
  | acc (sym : Index)
  /-- 0x11 HRD sym: read one histogram entry (40_histogram.md R71). -/
  | hrd (sym : Index)
  /-- 0x20 QPUSH id, freq: push one queue item (41_queue.md R78). -/
  | qpush (id : Index) (freq : Freq)
  /-- 0x21 QPOP: pop the minimum item (41_queue.md R79). -/
  | qpop
  /-- 0x22 QEMPTY: test the queue for emptiness (41_queue.md R80). -/
  | qempty
  /-- 0x30 BUILD: build the Huffman tree (42_tree_builder.md R85). -/
  | build
  /-- 0x31 NRD idx: read one arena entry (42_tree_builder.md R86). -/
  | nrd (idx : Index)
  /-- 0x40 PATH sym: derive the code of one symbol (43_code_deriver.md R100). -/
  | path (sym : Index)
  /-- 0x50 ABIT bit: append one bit (44_bit_packer.md R110). -/
  | abit (bit : Index)
  /-- 0x51 FLUSH: pack the pending bits and empty the buffer (44_bit_packer.md R111). -/
  | flush
  /-- 0x52 BSIZE: the packed size of the pending bits (44_bit_packer.md R112). -/
  | bsize
  deriving DecidableEq, Repr

end Sys2Proof
end

