-- ==== Sys2Proof/Machine/Operands.lean ====
section
/-!
DEFINITION. The operand forms and their legal ranges (30_encoding.md R56, R62): a symbol, a node
index, a status register number, a bit, a queue item's id and frequency. The decoder,
`Instr.wellFormed` and the meanings share them. Every comparison is of the field as an unsigned
number.
-/

namespace Sys2Proof.Machine

/-- A symbol operand is legal: `a < N` (R62). -/
def symbolOk (c : Config) (a : Index) : Bool := decide (a.toNat < c.n)

/-- A node index operand is legal: `a < 2N` (R62). -/
def nodeOk (c : Config) (a : Index) : Bool := decide (a.toNat < c.arenaCap)

/-- A status register number is legal: `a < 8` (R62). -/
def statusNumberOk (a : Index) : Bool := decide (a.toNat < 8)

/-- A bit operand is legal: `a < 2` (R62). -/
def bitOk (a : Index) : Bool := decide (a.toNat < 2)

/-- The id of a queue item: any 16-bit operand, kept as its low IDX_W bits (R56). At IDX_W = 16 that is
all of it. DEDUCED for narrower widths, where R62 reads differently: log entry 5. -/
def queueId (c : Config) (a : Index) : Index := c.toIndex a.toNat

/-- The frequency of a queue item: operand `b`, used as a FREQ_W-bit frequency, its low FREQ_W bits
(R56). At FREQ_W = 32 that is all of it. DEDUCED for narrower widths: log entry 5. -/
def queueFreq (c : Config) (b : Freq) : Freq := c.toFreq b.toNat

/-- The bit that an ABIT operand stands for (R56, R110). -/
def bitOf (a : Index) : Bool := decide (a.toNat = 1)

end Sys2Proof.Machine
end

