-- ==== Sys2Proof/WellFormed.lean ====
section
/-!
DEFINITION. Well-formed commands: every operand the command uses is in its range
(30_encoding.md R58, R62). The other conditions of R58 (a listed opcode, zero reserved and unused
fields) are conditions on a word and are the decoder's.
-/

namespace Sys2Proof

/-- Every operand of the command is in its range (30_encoding.md R62). QPUSH has no range: any id and any
frequency (41_queue.md R78, R56). DEDUCED for widths below the defaults, where R62 reads differently:
log entry 5. -/
def Instr.wellFormed (c : Config) : Instr → Bool
  | .reset => true
  | .rdsr n => Machine.statusNumberOk n
  | .acc sym => Machine.symbolOk c sym
  | .hrd sym => Machine.symbolOk c sym
  | .qpush _ _ => true
  | .qpop => true
  | .qempty => true
  | .build => true
  | .nrd idx => Machine.nodeOk c idx
  | .path sym => Machine.symbolOk c sym
  | .abit bit => Machine.bitOk bit
  | .flush => true
  | .bsize => true

/-- The command is well formed for the configuration. -/
abbrev Instr.WellFormed (c : Config) (i : Instr) : Prop := i.wellFormed c = true

end Sys2Proof
end

