-- ==== Sys2Proof/Decode.lean ====
section
/-!
DEFINITION. The decoder, total on every 64-bit word (30_encoding.md R55, R58 to R62), and after it
the encoder (R55, R60). A word that is not well formed is rejected by name; every reason leads to the
same fault, IllegalCommand, so their order is not observable (60_exceptions.md R138).
-/

namespace Sys2Proof

/-- Why a word is not well formed (30_encoding.md R58, R61). -/
inductive Reject where
  /-- The field `z` is not 0. -/
  | reservedNotZero
  /-- `op` is none of the thirteen opcodes. -/
  | unknownOpcode
  /-- An operand field that the command does not use is not 0 (R59). -/
  | unusedNotZero
  /-- An operand is out of its range (R62). -/
  | operandOutOfRange
  deriving DecidableEq, Repr

/-- The thirteen opcodes, by name (R60). -/
inductive Opcode where
  | reset | rdsr | acc | hrd | qpush | qpop | qempty | build | nrd | path | abit | flush | bsize
  deriving DecidableEq, Repr

/-- The field `op`, bits 63 to 56 (R55). -/
def fieldOp (w : Word) : Byte := w.extractLsb' 56 8

/-- The reserved field `z`, bits 55 to 48 (R55). -/
def fieldZ (w : Word) : Byte := w.extractLsb' 48 8

/-- The field `a`, bits 47 to 32 (R55). -/
def fieldA (w : Word) : Index := w.extractLsb' 32 16

/-- The field `b`, bits 31 to 0 (R55). -/
def fieldB (w : Word) : Freq := w.extractLsb' 0 32

/-- The number of an opcode (R60). -/
def Opcode.number : Opcode → Byte
  | .reset => 0x01
  | .rdsr => 0x02
  | .acc => 0x10
  | .hrd => 0x11
  | .qpush => 0x20
  | .qpop => 0x21
  | .qempty => 0x22
  | .build => 0x30
  | .nrd => 0x31
  | .path => 0x40
  | .abit => 0x50
  | .flush => 0x51
  | .bsize => 0x52

/-- The opcode map (R60), in the table's order. -/
def opcodeMap : List Opcode :=
  [.reset, .rdsr, .acc, .hrd, .qpush, .qpop, .qempty, .build, .nrd, .path, .abit, .flush, .bsize]

/-- The opcode a number stands for, if the map lists it (R60, R61). -/
def opcodeOf (op : Byte) : Option Opcode := opcodeMap.find? fun o => decide (o.number = op)

/-- A command that uses neither operand field: both must be 0 (R59). -/
def decodeNone (a : Index) (b : Freq) (i : Instr) : Except Reject Instr :=
  if a = 0 ∧ b = 0 then .ok i else .error .unusedNotZero

/-- A command that uses `a` only: `b` must be 0 and the operand in range (R59, R62). -/
def decodeA (c : Config) (b : Freq) (i : Instr) : Except Reject Instr :=
  if b = 0 then (if i.wellFormed c then .ok i else .error .operandOutOfRange)
  else .error .unusedNotZero

/-- A command that uses `a` and `b`: both in range (R62), which for QPUSH every value is (R56, R78). -/
def decodeAB (c : Config) (i : Instr) : Except Reject Instr :=
  if i.wellFormed c then .ok i else .error .operandOutOfRange

/-- The command of an opcode and its operand fields (R59, R60, R62). -/
def decodeOperands (c : Config) (o : Opcode) (a : Index) (b : Freq) : Except Reject Instr :=
  match o with
  | .reset => decodeNone a b .reset
  | .rdsr => decodeA c b (.rdsr a)
  | .acc => decodeA c b (.acc a)
  | .hrd => decodeA c b (.hrd a)
  | .qpush => decodeAB c (.qpush a b)
  | .qpop => decodeNone a b .qpop
  | .qempty => decodeNone a b .qempty
  | .build => decodeNone a b .build
  | .nrd => decodeA c b (.nrd a)
  | .path => decodeA c b (.path a)
  | .abit => decodeA c b (.abit a)
  | .flush => decodeNone a b .flush
  | .bsize => decodeNone a b .bsize

/-- Decoding a word (30_encoding.md R58), for any configuration (R64). -/
def decode (c : Config) (w : Word) : Except Reject Instr :=
  if fieldZ w = 0 then
    match opcodeOf (fieldOp w) with
    | none => .error .unknownOpcode
    | some o => decodeOperands c o (fieldA w) (fieldB w)
  else .error .reservedNotZero

/-- `word = {op, z, a, b}` with `z` = 0 (R55). -/
def assemble (op : Byte) (a : Index) (b : Freq) : Word := op ++ (0 : Byte) ++ a ++ b

/-- The word of a command (R55, R60); unused operand fields are 0 (R59). -/
def encode : Instr → Word
  | .reset => assemble 0x01 0 0
  | .rdsr n => assemble 0x02 n 0
  | .acc sym => assemble 0x10 sym 0
  | .hrd sym => assemble 0x11 sym 0
  | .qpush id freq => assemble 0x20 id freq
  | .qpop => assemble 0x21 0 0
  | .qempty => assemble 0x22 0 0
  | .build => assemble 0x30 0 0
  | .nrd idx => assemble 0x31 idx 0
  | .path sym => assemble 0x40 sym 0
  | .abit bit => assemble 0x50 bit 0
  | .flush => assemble 0x51 0 0
  | .bsize => assemble 0x52 0 0

/-- One row of the opcode table for the default configuration (R60): a word `w` selects the row when
`w &&& mask = pattern`. -/
structure OpcodeRow where
  /-- The mnemonic. -/
  mnemonic : String
  /-- The column `match`. -/
  pattern : Word
  /-- The column `mask`. -/
  mask : Word
  deriving DecidableEq, Repr

/-- The opcode table of 30_encoding.md R60, default configuration, in the table's order. The decoder
does not read it; that the two agree is a statement about both. -/
def opcodeTable : List OpcodeRow :=
  [ ⟨"RESET", 0x0100000000000000, 0xFFFFFFFFFFFFFFFF⟩,
    ⟨"RDSR", 0x0200000000000000, 0xFFFFFFF8FFFFFFFF⟩,
    ⟨"ACC", 0x1000000000000000, 0xFFFFFF00FFFFFFFF⟩,
    ⟨"HRD", 0x1100000000000000, 0xFFFFFF00FFFFFFFF⟩,
    ⟨"QPUSH", 0x2000000000000000, 0xFFFF000000000000⟩,
    ⟨"QPOP", 0x2100000000000000, 0xFFFFFFFFFFFFFFFF⟩,
    ⟨"QEMPTY", 0x2200000000000000, 0xFFFFFFFFFFFFFFFF⟩ ] ++
  [ ⟨"BUILD", 0x3000000000000000, 0xFFFFFFFFFFFFFFFF⟩,
    ⟨"NRD", 0x3100000000000000, 0xFFFFFE00FFFFFFFF⟩,
    ⟨"PATH", 0x4000000000000000, 0xFFFFFF00FFFFFFFF⟩,
    ⟨"ABIT", 0x5000000000000000, 0xFFFFFFFEFFFFFFFF⟩,
    ⟨"FLUSH", 0x5100000000000000, 0xFFFFFFFFFFFFFFFF⟩,
    ⟨"BSIZE", 0x5200000000000000, 0xFFFFFFFFFFFFFFFF⟩ ]

/-- A word selects a row (R60). -/
def OpcodeRow.selects (r : OpcodeRow) (w : Word) : Bool := decide (w &&& r.mask = r.pattern)

/-- The mnemonic of a command (R60, R65). -/
def Instr.mnemonic : Instr → String
  | .reset => "RESET"
  | .rdsr _ => "RDSR"
  | .acc _ => "ACC"
  | .hrd _ => "HRD"
  | .qpush _ _ => "QPUSH"
  | .qpop => "QPOP"
  | .qempty => "QEMPTY"
  | .build => "BUILD"
  | .nrd _ => "NRD"
  | .path _ => "PATH"
  | .abit _ => "ABIT"
  | .flush => "FLUSH"
  | .bsize => "BSIZE"

/-- The command word whose bits are `w`, numbered as spec/opcode_table.json numbers them (bit 0 the
least significant of the one 64-bit word, R55); bits from `nbits` up are 0 (log entry 12). -/
def tableWord (nbits w : Nat) : Word := BitVec.ofNat 64 (w % 2 ^ nbits)

/-- The command the decoder reads from such a word in the default configuration. -/
def decodeTableWord (nbits w : Nat) : Option Instr :=
  match decode Config.default (tableWord nbits w) with
  | .ok i => some i
  | .error _ => none

end Sys2Proof
end

