-- ==== Sys2Proof/Machine/Store.lean ====
section
/-!
DEFINITION. An element-indexed store (20_memory.md R40, R44): a list of (index, element) pairs in one
canonical form. An index that is not listed reads as the element's reset value `d`, which the spec
gives for every store (10_state.md R37). HIST and ARENA are stores.
-/

namespace Sys2Proof.Machine

/-- The contents of a store, indices strictly rising, no element equal to the reset value. -/
abbrev Store (α : Type) := List (Nat × α)

/-- The element at index `i`. -/
def Store.get {α : Type} (d : α) (m : Store α) (i : Nat) : α :=
  match m with
  | [] => d
  | (j, v) :: rest => if j = i then v else Store.get d rest i

/-- Put an element at the front, unless it equals the reset value. -/
def Store.cons {α : Type} [DecidableEq α] (d : α) (i : Nat) (v : α) (m : Store α) : Store α :=
  if v = d then m else (i, v) :: m

/-- Write the element at index `i`, keeping the canonical form: writing the reset value removes the
entry. -/
def Store.set {α : Type} [DecidableEq α] (d : α) (m : Store α) (i : Nat) (v : α) : Store α :=
  match m with
  | [] => Store.cons d i v []
  | (j, u) :: rest =>
    if i < j then Store.cons d i v ((j, u) :: rest)
    else if i = j then Store.cons d i v rest
    else (j, u) :: Store.set d rest i v

/-- The canonical form: every index is at least `lo` and below `bound`, indices strictly rise, and
no element equals the reset value. -/
def Store.wfFrom {α : Type} [DecidableEq α] (d : α) (bound lo : Nat) : Store α → Bool
  | [] => true
  | (j, v) :: rest =>
    decide (lo ≤ j) && decide (j < bound) && decide (v ≠ d) && Store.wfFrom d bound (j + 1) rest

/-- The canonical form of a store with `bound` elements. -/
def Memory.wf {α : Type} [DecidableEq α] (d : α) (bound : Nat) (m : Store α) : Bool :=
  Store.wfFrom d bound 0 m

end Sys2Proof.Machine
end

