-- ==== Sys2Proof/Machine/State.lean ====
section
/-!
DEFINITION. The state of the block (10_state.md R22 to R33), its interface to the host, the reasons
a step of the model can stop, and the state after reset (R37).
-/

namespace Sys2Proof.Machine

/-- One arena entry (10_state.md R23). The three links hold a node index or NONE. -/
structure Node where
  parent : Index
  left : Index
  right : Index
  freq : Freq
  deriving DecidableEq, Repr

/-- One queue item (10_state.md R27). -/
structure Item where
  id : Index
  freq : Freq
  deriving DecidableEq, Repr

/-- The response record (30_encoding.md R57). A field a command does not name is 0 or empty. -/
structure Response where
  err : Code := 0
  id : Index := 0
  l : Index := 0
  r : Index := 0
  d : Data := 0
  code : List Bool := []
  bytes : List Byte := []
  deriving DecidableEq, Repr

/-- What the host can do to the block (70_reset_and_hazards.md R158): present any 64-bit word as a
command, or assert the hardware reset. -/
inductive HostEvent where
  | command (w : Word)
  | hardwareReset
  deriving DecidableEq, Repr

/-- The eight fault kinds of the block (60_exceptions.md R134). A fault of the block is entered by a
next state (R139); it is not an end of the model's run. -/
inductive FaultKind where
  | emptyQueue
  | emptyAlphabet
  | symbolNotInTree
  | capacityExceeded
  | queueFull
  | freqOverflow
  | bitBufferFull
  | illegalCommand
  deriving DecidableEq, Repr

/-- Where the model stops. Each of the three is raised only in states that no run from reset reaches
(log entries 7 and 8), so each is safe. -/
inductive Fault where
  /-- PATH's parent chain did not end within N steps (43_code_deriver.md R100 runs it with fuel N).
  Raised by `execPath` in a state whose arena is no tree of a BUILD. Safe. -/
  | pathDiverges
  /-- PATH's parent chain left the arena's index range (20_memory.md R40, R45). Raised by `execPath`
  in a state whose arena is no tree of a BUILD. Safe. -/
  | arenaIndexOutOfRange
  /-- BUILD's merge loop found no item to pop, which 42_tree_builder.md R87 rules out. Raised by
  `execBuild` in no state; the loop's code needs a name for the case. Safe. -/
  | buildQueueUnderflow
  deriving DecidableEq, Repr

/-- Where the model gives no behaviour. -/
inductive Refusal where
  /-- An instruction without a meaning in this model, by its mnemonic. Raised by `exec` for an arm
  not yet modelled: none is left. Safe. -/
  | notModelled (mnemonic : String)
  /-- The configuration is not well formed, the source's CapacityExceeded: no block exists for it
  (00_scope.md R12). Raised by `step`. Safe: the spec gives such a configuration no behaviour. -/
  | capacityExceeded
  deriving DecidableEq, Repr

/-- The whole state. `hist` to `total` are the block's (10_state.md R22 to R33). `response`,
`pending` and `cfg` are the model's own: the interface to the host (log entries 2, 3) and the
block's fixed configuration (log entry 1). -/
structure State where
  /-- The configuration. No step changes it (R39). -/
  cfg : Config
  /-- The histogram, N counts indexed by symbol, reset value 0 (R22). -/
  hist : Store Freq
  /-- The arena, 2N nodes indexed by node index, reset value (NONE, NONE, NONE, 0) (R23). -/
  arena : Store Node
  /-- The queue, head first (R27). -/
  queue : List Item
  /-- The bit buffer, oldest first (R29). -/
  bits : List Bool
  /-- The code of the first fault since the last reset, or 0 (R30). -/
  err : Code
  /-- The root of the last BUILD's tree, or NONE (R31). -/
  root : Index
  /-- The active leaves of the last BUILD, or 0 (R32). -/
  nleaf : Index
  /-- The index the next internal node would get (R32). -/
  nnext : Index
  /-- The ACC commands executed since the last reset (R33). -/
  total : Freq
  /-- The response of the last event the block handled, if it returned one. -/
  response : Option Response
  /-- What the host has presented and the block has not yet taken, oldest first. -/
  pending : List HostEvent
  deriving DecidableEq, Repr

/-- The block of a configuration right after reset (10_state.md R37). -/
def State.initial (c : Config) : State :=
  { cfg := c, hist := [], arena := [], queue := [], bits := [], err := 0, root := c.none,
    nleaf := 0, nnext := c.toIndex c.n, total := 0, response := none, pending := [] }

/-- The machine right after reset: the default configuration, every field as R37 says, no command
pending. -/
def State.reset : State := State.initial Config.default

end Sys2Proof.Machine
end

