-- ==== Sys2Proof/Machine/Flags.lean ====
section
/-!
DEFINITION. The derived values and flags (10_state.md R34) and the eight status registers (R35,
46_system.md R129). No command's behaviour depends on a flag other than FAULT (R34).
-/

namespace Sys2Proof.Machine

/-- FAULT = (ERR ≠ 0), the faulted state (R34, 60_exceptions.md R140). -/
def flagFault (s : State) : Bool := decide (s.err ≠ 0)

/-- TREE = (ROOT ≠ NONE) (R34). -/
def flagTree (s : State) : Bool := decide (s.root ≠ s.cfg.none)

/-- QEMPTY = (QLEN = 0) (R34). -/
def flagQEmpty (s : State) : Bool := decide (s.queue.length = 0)

/-- BITS = (BITCNT ≠ 0) (R34). -/
def flagBits (s : State) : Bool := decide (s.bits.length ≠ 0)

/-- STATUS = 28 zero bits, BITS, QEMPTY, TREE, FAULT (R35, R129). -/
def statusWord (s : State) : Data :=
  (0 : BitVec 28) ++ BitVec.ofBool (flagBits s) ++ BitVec.ofBool (flagQEmpty s) ++
    BitVec.ofBool (flagTree s) ++ BitVec.ofBool (flagFault s)

/-- The status register number `n`, below 8, as a 32-bit value (R35, R129). -/
def statusRegister (s : State) (n : Index) : Data :=
  match n.toNat with
  | 0 => statusWord s
  | 1 => s.err.setWidth 32
  | 2 => s.root.setWidth 32
  | 3 => s.nleaf.setWidth 32
  | 4 => s.nnext.setWidth 32
  | 5 => BitVec.ofNat 32 s.queue.length
  | 6 => s.total
  | _ => BitVec.ofNat 32 s.bits.length

end Sys2Proof.Machine
end

