-- ==== Sys2Proof/Machine/Ops.lean ====
section
/-!
DEFINITION. The named operations over the state: the accesses to HIST and ARENA (20_memory.md R41,
R44), the response (00_scope.md R16), fault entry and the faulted state (60_exceptions.md R138 to
R140), the return from it, which is reset (R141, 46_system.md R128), and the decode-and-fault
skeleton every command shares (30_encoding.md R58).
-/

namespace Sys2Proof.Machine

/-- The three outcomes of a step of this machine. -/
abbrev Outcome := Host.Outcome State Fault Refusal

/-- The code of a fault kind (60_exceptions.md R134). -/
def FaultKind.code : FaultKind → Code
  | .emptyQueue => 1
  | .emptyAlphabet => 2
  | .symbolNotInTree => 3
  | .capacityExceeded => 4
  | .queueFull => 5
  | .freqOverflow => 6
  | .bitBufferFull => 7
  | .illegalCommand => 8

/-- An arena entry at its reset value (10_state.md R37). -/
def nodeReset (c : Config) : Node := ⟨c.none, c.none, c.none, 0⟩

/-- `hist[i]` (00_scope.md R15). -/
def histGet (s : State) (i : Nat) : Freq := Store.get 0 s.hist i

/-- `hist[i] <- v`. -/
def histSet (s : State) (i : Nat) (v : Freq) : State := { s with hist := Store.set 0 s.hist i v }

/-- `arena[i]` of an arena of the configuration. -/
def nodeGet (c : Config) (arena : Store Node) (i : Nat) : Node := Store.get (nodeReset c) arena i

/-- `arena[i] <- v`. -/
def nodeSet (c : Config) (arena : Store Node) (i : Nat) (v : Node) : Store Node :=
  Store.set (nodeReset c) arena i v

/-- `arena[i]` of a state. -/
def arenaGet (s : State) (i : Nat) : Node := nodeGet s.cfg s.arena i

/-- `respond(...)` of a command that executed (00_scope.md R16, 30_encoding.md R57). -/
def respond (r : Response) (s : State) : State := { s with response := some r }

/-- `raise F`: fault entry (60_exceptions.md R139). ERR takes the code, the response carries it, and
nothing else changes. -/
def raise (k : FaultKind) (s : State) : Outcome :=
  .next { s with err := k.code, response := some { err := k.code } }

/-- A refused command in the faulted state: the response carries the latched code and no state
changes (60_exceptions.md R140). -/
def refuse (s : State) : Outcome := .next { s with response := some { err := s.err } }

/-- A word or command that is not well formed: refused in the faulted state, IllegalCommand
otherwise (30_encoding.md R58, 60_exceptions.md R138). -/
def illegal (s : State) : Outcome := if flagFault s then refuse s else raise .illegalCommand s

/-- The skeleton of every command but RESET and RDSR (30_encoding.md R58, 60_exceptions.md R138):
refused in the faulted state, IllegalCommand when an operand is out of range, else the body. -/
def guarded (legal : Bool) (s : State) (body : Outcome) : Outcome :=
  if flagFault s then refuse s else if legal then body else raise .illegalCommand s

/-- Every piece of the block's state to its reset value (10_state.md R37, 46_system.md R128): the
return from the faulted state (60_exceptions.md R141). The configuration and the host's pending
events are not the block's state and stay. -/
def clearBlock (s : State) : State :=
  { s with
    hist := []
    arena := []
    queue := []
    bits := []
    err := 0
    root := s.cfg.none
    nleaf := 0
    nnext := s.cfg.toIndex s.cfg.n
    total := 0 }

/-- The hardware reset: the effect of RESET without a response (46_system.md R130). -/
def hardwareReset (s : State) : State := { clearBlock s with response := none }

end Sys2Proof.Machine
end

