-- ==== Sys2Proof/Machine/Code.lean ====
section
/-!
DEFINITION. The code deriver: PATH (43_code_deriver.md R100, R104).
-/

namespace Sys2Proof.Machine

/-- The bit of the edge from `cur` up to its parent `p`: 0 (false) if `cur` is its left child, else 1
(R100). -/
def edgeBit (s : State) (p cur : Index) : Bool :=
  if (arenaGet s p.toNat).left = cur then false else true

/-- The walk from `cur` to the root, its bits in the order collected, leaf side first (R100), with
fuel. It ends at a node whose parent is NONE. -/
def pathWalk (s : State) : Nat → Index → Except Fault (List Bool)
  | fuel, cur =>
    if (arenaGet s cur.toNat).parent = s.cfg.none then .ok []
    else
      match fuel with
      | 0 => .error .pathDiverges
      | fuel' + 1 =>
        if nodeOk s.cfg (arenaGet s cur.toNat).parent then
          match pathWalk s fuel' (arenaGet s cur.toNat).parent with
          | .error e => .error e
          | .ok rest => .ok (edgeBit s (arenaGet s cur.toNat).parent cur :: rest)
        else .error .arenaIndexOutOfRange

/-- The code of a symbol in the tree, root side first (R100); the one bit 0 when its leaf is the root
(R104). -/
def codeOf (s : State) (sym : Index) : Except Fault (List Bool) :=
  if (arenaGet s sym.toNat).parent = s.cfg.none then .ok [false]
  else
    match pathWalk s s.cfg.n sym with
    | .error e => .error e
    | .ok acc => .ok acc.reverse

/-- PATH (43_code_deriver.md R100): SymbolNotInTree when the leaf has frequency 0, else the code and
its length. The state does not change. -/
def execPath (sym : Index) (s : State) : Outcome :=
  guarded (symbolOk s.cfg sym) s
    (if (arenaGet s sym.toNat).freq = 0 then raise .symbolNotInTree s
     else
      match codeOf s sym with
      | .error e => .fault e
      | .ok code => .next (respond { d := BitVec.ofNat 32 code.length, code := code } s))

end Sys2Proof.Machine
end

