-- ==== Sys2Proof/Machine/Histogram.lean ====
section
/-!
DEFINITION. The histogram commands ACC and HRD (40_histogram.md R70, R71).
-/

namespace Sys2Proof.Machine

/-- `v + 1` in FREQ_W bits (R70). -/
def countUp (c : Config) (v : Freq) : Freq := c.toFreq (v.toNat + 1)

/-- The count of one symbol and TOTAL, both one up (R70). -/
def accumulate (sym : Nat) (s : State) : State :=
  { histSet s sym (countUp s.cfg (histGet s sym)) with total := countUp s.cfg s.total }

/-- ACC (40_histogram.md R70): FreqOverflow when TOTAL is 2^FREQ_W - 1, else one count up. -/
def execAcc (sym : Index) (s : State) : Outcome :=
  guarded (symbolOk s.cfg sym) s
    (if s.total.toNat = s.cfg.freqMax then raise .freqOverflow s
     else .next (respond { } (accumulate sym.toNat s)))

/-- HRD (40_histogram.md R71): `d` is the count, the state does not change. -/
def execHrd (sym : Index) (s : State) : Outcome :=
  guarded (symbolOk s.cfg sym) s (.next (respond { d := histGet s sym.toNat } s))

end Sys2Proof.Machine
end

