-- ==== Sys2Proof/Machine/Packer.lean ====
section
/-!
DEFINITION. The bit packer: ABIT, FLUSH, BSIZE and the packing function (44_bit_packer.md R110 to
R114, 20_memory.md R43).
-/

namespace Sys2Proof.Machine

/-- `ceil(n / 8)`, the number of bytes that `n` bits take (00_scope.md R13, R113). -/
def byteCount (n : Nat) : Nat := (n + 7) / 8

/-- Byte `k` of the packed bits: bit `8k + j` at position `7 - j`, zero past the end (R113). -/
def packByte (bits : List Bool) (k : Nat) : Byte :=
  BitVec.ofNat 8
    ((List.range 8).map fun j => if bits.getD (8 * k + j) false then 2 ^ (7 - j) else 0).sum

/-- `pack(bits)`, first byte first (R113). -/
def pack (bits : List Bool) : List Byte := (List.range (byteCount bits.length)).map (packByte bits)

/-- ABIT (44_bit_packer.md R110): BitBufferFull when the buffer is full, else the bit at its end. -/
def execAbit (bit : Index) (s : State) : Outcome :=
  guarded (bitOk bit) s
    (if s.bits.length = s.cfg.bitbufCap then raise .bitBufferFull s
     else .next (respond { } { s with bits := s.bits ++ [bitOf bit] }))

/-- FLUSH (44_bit_packer.md R111): the packed bytes, their number, and an empty buffer. -/
def execFlush (s : State) : Outcome :=
  guarded true s
    (.next (respond { d := BitVec.ofNat 32 (pack s.bits).length, bytes := pack s.bits }
      { s with bits := [] }))

/-- BSIZE (44_bit_packer.md R112): the packed size, the state does not change. -/
def execBsize (s : State) : Outcome :=
  guarded true s (.next (respond { d := BitVec.ofNat 32 (byteCount s.bits.length) } s))

end Sys2Proof.Machine
end

