-- ==== Sys2Proof/Machine/Queue.lean ====
section
/-!
DEFINITION. The bounded priority queue: the primitives Push, Pop and IsEmpty (41_queue.md R75 to
R77) and the commands QPUSH, QPOP and QEMPTY (R78 to R80).
-/

namespace Sys2Proof.Machine

/-- Where Push puts an item of frequency `f`: after every item whose frequency is at most `f`
(41_queue.md R75). -/
def pushPosition (q : List Item) (f : Freq) : Nat := q.countP fun x => decide (x.freq.toNat ≤ f.toNat)

/-- `Push(id, f)` (R75): the stable sorted insert, earliest-inserted first among equals. -/
def push (q : List Item) (it : Item) : List Item :=
  q.take (pushPosition q it.freq) ++ it :: q.drop (pushPosition q it.freq)

/-- `Pop()` (R76): the head and the rest; none when its precondition fails. -/
def pop : List Item → Option (Item × List Item)
  | [] => none
  | it :: rest => some (it, rest)

/-- `IsEmpty()` (R77). -/
def isEmpty (q : List Item) : Bool := decide (q.length = 0)

/-- QPUSH (41_queue.md R78): QueueFull when QLEN = QUEUE_CAP, else Push of the operands' low IDX_W and
FREQ_W bits (30_encoding.md R56). -/
def execQpush (id : Index) (freq : Freq) (s : State) : Outcome :=
  guarded true s
    (if s.queue.length = s.cfg.queueCap then raise .queueFull s
     else .next (respond { } { s with queue := push s.queue ⟨queueId s.cfg id, queueFreq s.cfg freq⟩ }))

/-- QPOP (41_queue.md R79): EmptyQueue when the queue is empty, else the head leaves and is
returned. -/
def execQpop (s : State) : Outcome :=
  guarded true s
    (match pop s.queue with
     | none => raise .emptyQueue s
     | some (it, rest) => .next (respond { id := it.id, d := it.freq } { s with queue := rest }))

/-- QEMPTY (41_queue.md R80): `d` is 1 if the queue is empty, else 0. -/
def execQempty (s : State) : Outcome :=
  guarded true s (.next (respond { d := if isEmpty s.queue then 1 else 0 } s))

end Sys2Proof.Machine
end

