-- ==== Sys2Proof/Machine/System.lean ====
section
/-!
DEFINITION. The system commands RESET and RDSR, the only ones that execute in the faulted state
(46_system.md R128, R129, 60_exceptions.md R140).
-/

namespace Sys2Proof.Machine

/-- RESET (46_system.md R128): the whole block to its reset state, faulted or not. -/
def execReset (s : State) : Outcome := .next (respond { } (clearBlock s))

/-- RDSR (46_system.md R129): `d` is status register `n`; it executes in the faulted state with
`err` = 0. A number of 8 or more is an illegal word (30_encoding.md R58). -/
def execRdsr (n : Index) (s : State) : Outcome :=
  if statusNumberOk n then .next (respond { d := statusRegister s n } s) else illegal s

end Sys2Proof.Machine
end

