-- ==== Sys2Proof/Machine/Tree.lean ====
section
/-!
DEFINITION. The tree builder: BUILD and NRD (42_tree_builder.md R85, R86).
-/

namespace Sys2Proof.Machine

/-- What BUILD works on inside its one indivisible step (R85): the arena and the queue, both clean
at step 0, and the next internal index. -/
structure Work where
  arena : Store Node
  queue : List Item
  next : Nat
  deriving DecidableEq, Repr

/-- Step 0: a clean arena and queue, and `next <- N` (R85). -/
def workStart (c : Config) : Work := { arena := [], queue := [], next := c.n }

/-- The active leaves, in ascending symbol value (R85 step 1, 00_scope.md R18). -/
def activeLeaves (s : State) : List Nat :=
  (List.range s.cfg.n).filter fun i => decide (histGet s i ≠ 0)

/-- Step 1 for one active leaf: its frequency into the arena and the item into the queue (R85). -/
def addLeaf (s : State) (w : Work) (i : Nat) : Work :=
  { w with
    arena := nodeSet s.cfg w.arena i { nodeGet s.cfg w.arena i with freq := histGet s i }
    queue := push w.queue ⟨s.cfg.toIndex i, histGet s i⟩ }

/-- Step 1 for every active leaf (R85). -/
def addLeaves (s : State) : Work := (activeLeaves s).foldl (addLeaf s) (workStart s.cfg)

/-- `arena[i].parent <- p`. -/
def setParent (c : Config) (arena : Store Node) (i : Nat) (p : Index) : Store Node :=
  nodeSet c arena i { nodeGet c arena i with parent := p }

/-- Step 3 of the builder (R85): the two popped items become the children of the next internal node,
which is pushed with the sum of their frequencies. -/
def mergePair (c : Config) (w : Work) (a b : Item) : Work :=
  let n := c.toIndex w.next
  let f := c.toFreq (a.freq.toNat + b.freq.toNat)
  let arena1 := nodeSet c w.arena w.next { parent := c.none, left := a.id, right := b.id, freq := f }
  let arena2 := setParent c arena1 a.id.toNat n
  let arena3 := setParent c arena2 b.id.toNat n
  { arena := arena3, queue := push w.queue ⟨n, f⟩, next := w.next + 1 }

/-- The loop of steps 2 to 4 (R85), with fuel (R87: fuel L suffices). The result is the root and what
the loop leaves; none when a Pop finds no item or the fuel runs out, which R87 rules out. -/
def mergeLoop (c : Config) (fuel : Nat) (w : Work) : Option (Index × Work) :=
  match pop w.queue with
  | none => none
  | some (a, q1) =>
    if isEmpty q1 then some (a.id, { w with queue := q1 })
    else
      match fuel, pop q1 with
      | 0, _ => none
      | _, none => none
      | fuel' + 1, some (b, q2) => mergeLoop c fuel' (mergePair c { w with queue := q2 } a b)

/-- BUILD (42_tree_builder.md R85): EmptyAlphabet when no leaf is active, else the greedy merge. -/
def execBuild (s : State) : Outcome :=
  guarded true s
    (if (activeLeaves s).length = 0 then raise .emptyAlphabet s
     else
      match mergeLoop s.cfg (activeLeaves s).length (addLeaves s) with
      | none => .fault .buildQueueUnderflow
      | some (root, w) =>
        .next (respond { }
          { s with
            arena := w.arena
            queue := w.queue
            root := root
            nleaf := s.cfg.toIndex (activeLeaves s).length
            nnext := s.cfg.toIndex w.next }))

/-- NRD (42_tree_builder.md R86): the four fields of one node, the state does not change. -/
def execNrd (idx : Index) (s : State) : Outcome :=
  guarded (nodeOk s.cfg idx) s
    (.next (respond
      { id := (arenaGet s idx.toNat).parent
        l := (arenaGet s idx.toNat).left
        r := (arenaGet s idx.toNat).right
        d := (arenaGet s idx.toNat).freq } s))

end Sys2Proof.Machine
end

