-- ==== Sys2Proof/Machine/Dispatch.lean ====
section
/-!
DEFINITION. The one dispatch: each command to its meaning (30_encoding.md R60).
-/

namespace Sys2Proof.Machine

def exec (i : Instr) (s : State) : Host.Outcome State Fault Refusal :=
  match i with
  | .reset => Sys2Proof.Machine.execReset s
  | .rdsr n => Sys2Proof.Machine.execRdsr n s
  | .acc sym => Sys2Proof.Machine.execAcc sym s
  | .hrd sym => Sys2Proof.Machine.execHrd sym s
  | .qpush id freq => Sys2Proof.Machine.execQpush id freq s
  | .qpop => Sys2Proof.Machine.execQpop s
  | .qempty => Sys2Proof.Machine.execQempty s
  | .build => Sys2Proof.Machine.execBuild s
  | .nrd idx => Sys2Proof.Machine.execNrd idx s
  | .path sym => Sys2Proof.Machine.execPath sym s
  | .abit bit => Sys2Proof.Machine.execAbit bit s
  | .flush => Sys2Proof.Machine.execFlush s
  | .bsize => Sys2Proof.Machine.execBsize s

end Sys2Proof.Machine
end

