-- ==== Sys2Proof/Machine/Command.lean ====
section
/-!
DEFINITION. Handling one event from the host: a command word is decoded and executed
(30_encoding.md R58), the hardware reset clears the block (46_system.md R130). `step` only calls
this.
-/

namespace Sys2Proof.Machine

/-- One command word: the decoded command runs, an ill-formed word is illegal (30_encoding.md R58). -/
def runWord (w : Word) (s : State) : Outcome :=
  match decode s.cfg w with
  | .ok i => exec i s
  | .error _ => illegal s

/-- One event from the host (70_reset_and_hazards.md R158). -/
def handle (e : HostEvent) (s : State) : Outcome :=
  match e with
  | .command w => runWord w s
  | .hardwareReset => .next (hardwareReset s)

/-- The next event is taken and handled; with none pending the block keeps its state (R158). -/
def takeEvent (s : State) : Outcome :=
  match s.pending with
  | [] => .next s
  | e :: rest => handle e { s with pending := rest }

/-- A command word put where the next event is taken from: the host presents it. -/
def presentWord (w : Word) (s : State) : State := { s with pending := .command w :: s.pending }

end Sys2Proof.Machine
end

