-- ==== Sys2Proof/Machine/Step.lean ====
section
/-!
DEFINITION. One step of the machine: one event of the host, executed as one indivisible transition
(00_scope.md R5). A configuration that is not well formed has no block and no step (R12).
-/

namespace Sys2Proof.Machine

/-- One step (00_scope.md R5, R12; 70_reset_and_hazards.md R158). -/
def step (s : State) : Host.Outcome State Fault Refusal :=
  if s.cfg.wellFormed then takeEvent s else .refused .capacityExceeded

/-- The state with the table's word presented as the host's next command. -/
def State.withFetchWord (s : State) (nbits w : Nat) : State := presentWord (tableWord nbits w) s

end Sys2Proof.Machine
end

