-- ==== Sys2Proof/Machine/Encoder.lean ====
section
/-!
DEFINITION. The pseudo-commands of the host's Encoder (30_encoding.md R66, 45_encoder_pseudo.md R120 to
R123) as fixed sequences of commands, and the host's decoding walk (43_code_deriver.md R105). The
host is not the block: nothing here is a step of the machine, each command in a sequence is one `exec`.
-/

namespace Sys2Proof.Machine

/-- One command after another; a stop of the model ends the sequence. -/
def andThen (o : Outcome) (k : State → Outcome) : Outcome :=
  match o with
  | .next s => k s
  | .fault r => .fault r
  | .refused r => .refused r

/-- A sequence of commands, issued in order. -/
def runAll : List Instr → State → Outcome
  | [], s => .next s
  | i :: rest, s => andThen (exec i s) (runAll rest)

/-- `ACCUMULATE bytes` (R120). -/
def accumulateSeq (bytes : List Index) : List Instr := bytes.map .acc

/-- The operand of ABIT for a bit (R56). -/
def bitOperand (b : Bool) : Index := if b then 1 else 0

/-- `APPENDBITS seq` (R121). -/
def appendBitsSeq (seq : List Bool) : List Instr := seq.map fun b => .abit (bitOperand b)

/-- What the host does after PATH (R122): APPENDBITS of the returned code, only when `err` = 0. -/
def appendResponse (s : State) : Outcome :=
  match s.response with
  | none => .next s
  | some r => if r.err = 0 then runAll (appendBitsSeq r.code) s else .next s

/-- `EMIT sym` (R122). -/
def emit (sym : Index) (s : State) : Outcome := andThen (exec (.path sym) s) appendResponse

/-- One `EMIT` per byte, in order (R123). -/
def emitAll : List Index → State → Outcome
  | [], s => .next s
  | b :: rest, s => andThen (emit b s) (emitAll rest)

/-- `ENCODE bytes` (R123); its result is the `bytes` field of the last response. After a fault the later
commands are still issued and refused (R124). -/
def encodeBytes (bytes : List Index) (s : State) : Outcome :=
  andThen (runAll (accumulateSeq bytes) s) fun s1 =>
    andThen (exec .build s1) fun s2 => andThen (emitAll bytes s2) (exec .flush)

/-- The bits of a byte sequence, bit i from byte `i div 8`, position `7 - (i mod 8)` (20_memory.md R43,
R105). -/
def unpack (bytes : List Byte) : List Bool :=
  bytes.flatMap fun b => (List.range 8).map fun j => b.getLsbD (7 - j)

/-- The walk down from `cur` to a leaf, one bit per edge (R105): the leaf and the bits left. -/
def descend (s : State) : List Bool → Nat → Option (Nat × List Bool)
  | [], cur => if cur < s.cfg.n then some (cur, []) else none
  | b :: rest, cur =>
    if cur < s.cfg.n then some (cur, b :: rest)
    else descend s rest (if b then (arenaGet s cur).right.toNat else (arenaGet s cur).left.toNat)

/-- One symbol from the front of the bits (R105): a root that is a leaf takes one bit. -/
def walkSymbol (s : State) (bits : List Bool) : Option (Nat × List Bool) :=
  if s.root.toNat < s.cfg.n then
    match bits with
    | [] => none
    | _ :: rest => some (s.root.toNat, rest)
  else descend s bits s.root.toNat

/-- As many symbols as the count that comes from outside (R105); the bits left are padding. -/
def walkSymbols (s : State) : Nat → List Bool → Option (List Nat)
  | 0, _ => some []
  | k + 1, bits =>
    match walkSymbol s bits with
    | none => none
    | some (sym, rest) => (walkSymbols s k rest).map (sym :: ·)

end Sys2Proof.Machine
end

