-- ==== Sys2Proof/Safety.lean ====
section
/-!
DEFINITION. What claims are stated in: the invariant of reachable states (10_state.md R25 to R27, R38,
42_tree_builder.md R87 to R90), what the greedy merge chooses (R82, R85), and the parent walk as a
relation (43_code_deriver.md R100).
-/

namespace Sys2Proof.Machine

/-- The frequency of a node, as a number. -/
def nodeFreq (c : Config) (A : Store Node) (i : Nat) : Nat := (nodeGet c A i).freq.toNat

/-- The parent field of a node, as a number. -/
def nodeParent (c : Config) (A : Store Node) (i : Nat) : Nat := (nodeGet c A i).parent.toNat

/-- The left field of a node, as a number. -/
def nodeLeft (c : Config) (A : Store Node) (i : Nat) : Nat := (nodeGet c A i).left.toNat

/-- The right field of a node, as a number. -/
def nodeRight (c : Config) (A : Store Node) (i : Nat) : Nat := (nodeGet c A i).right.toNat

/-- A node BUILD wrote is told by its frequency (42_tree_builder.md R93). -/
abbrev Materialised (c : Config) (A : Store Node) (i : Nat) : Prop := nodeFreq c A i ≠ 0

/-- The sum of all histogram entries (10_state.md R38 (a)). -/
def histSum (s : State) : Nat := ((List.range s.cfg.n).map fun i => (histGet s i).toNat).sum

/-- The sum of the frequencies of all leaves of an arena. -/
def leafSum (c : Config) (A : Store Node) : Nat := ((List.range c.n).map (nodeFreq c A)).sum

/-- A child of an internal node `p` (42_tree_builder.md R88, R89): materialised, below `p`, and with
`p` as its parent. -/
structure IsChild (c : Config) (A : Store Node) (p i : Nat) : Prop where
  below : i < p
  materialised : Materialised c A i
  parent : nodeParent c A i = p

/-- An internal node (R88, R90): two different children, and the sum of their frequencies. -/
structure IsInternal (c : Config) (A : Store Node) (p : Nat) : Prop where
  left : IsChild c A p (nodeLeft c A p)
  right : IsChild c A p (nodeRight c A p)
  different : nodeLeft c A p ≠ nodeRight c A p
  freq : nodeFreq c A p = nodeFreq c A (nodeLeft c A p) + nodeFreq c A (nodeRight c A p)

/-- A materialised node that is not the root (R26, R89): its parent is an internal node above it that
has it as a child. -/
structure IsLinked (c : Config) (A : Store Node) (next i : Nat) : Prop where
  internal : c.n ≤ nodeParent c A i
  allocated : nodeParent c A i < next
  above : i < nodeParent c A i
  child : nodeLeft c A (nodeParent c A i) = i ∨ nodeRight c A (nodeParent c A i) = i

/-- The arena holds the tree of a BUILD (10_state.md R38 (d), (e)): its root, the number of its active
leaves and the next internal index. -/
structure IsTree (c : Config) (A : Store Node) (root nleaf next : Nat) : Prop where
  /-- NLEAF ≥ 1 (R38 (d)). -/
  one_le : 1 ≤ nleaf
  /-- NLEAF counts the active leaves (R32). -/
  leaf_count : ((List.range c.n).filter fun i => decide (Materialised c A i)).length = nleaf
  /-- NNEXT = N + NLEAF - 1 (R38 (d), R87). -/
  next_eq : next = c.n + nleaf - 1
  /-- ROOT = NNEXT - 1 when NLEAF ≥ 2 (R38 (d)). -/
  root_many : 2 ≤ nleaf → root = next - 1
  /-- ROOT is the one active leaf when NLEAF = 1 (R38 (d)). -/
  root_one : nleaf = 1 → root < c.n
  /-- The root is materialised. -/
  root_materialised : Materialised c A root
  /-- The root has no parent (R26). -/
  root_parent : (nodeGet c A root).parent = c.none
  /-- A leaf has no children (R88). -/
  leaf_links : ∀ i, i < c.n → (nodeGet c A i).left = c.none ∧ (nodeGet c A i).right = c.none
  /-- A node BUILD did not write has its reset value (R93, R25). -/
  absent : ∀ i, ¬ Materialised c A i ∨ next ≤ i → nodeGet c A i = nodeReset c
  /-- Every allocated internal node is full (R88, R90). -/
  internal : ∀ p, c.n ≤ p → p < next → Materialised c A p ∧ IsInternal c A p
  /-- Every materialised node but the root is linked to its parent (R26, R89). -/
  linked : ∀ i, Materialised c A i → i ≠ root → IsLinked c A next i
  /-- The root's frequency is the sum of all leaves' (R90). -/
  root_freq : nodeFreq c A root = leafSum c A

/-- No BUILD has completed since reset (10_state.md R38 (d)). -/
structure NoTree (s : State) : Prop where
  root : s.root = s.cfg.none
  arena : ∀ i, arenaGet s i = nodeReset s.cfg
  nleaf : s.nleaf = 0
  nnext : s.nnext.toNat = s.cfg.n

/-- The queue is sorted ascending by frequency (10_state.md R27). -/
abbrev QueueSorted (q : List Item) : Prop := q.Pairwise fun x y => x.freq.toNat ≤ y.freq.toNat

/-- The invariant of the machine (10_state.md R38): it holds after reset and every step keeps it. R38
claims it with ERR = 0; in the faulted state it holds as well, since nothing changes there
(60_exceptions.md R139, R140). -/
structure Inv (s : State) : Prop where
  /-- A block exists (00_scope.md R12). -/
  cfg : s.cfg.WellFormed
  /-- HIST is in canonical form. -/
  hist_wf : Memory.wf 0 s.cfg.n s.hist = true
  /-- ARENA is in canonical form. -/
  arena_wf : Memory.wf (nodeReset s.cfg) s.cfg.arenaCap s.arena = true
  /-- TOTAL is the sum of the histogram (R38 (a)). -/
  total_eq : s.total.toNat = histSum s
  /-- TOTAL fits FREQ_W bits (R38 (a)). -/
  total_le : s.total.toNat ≤ s.cfg.freqMax
  /-- The queue is sorted (R38 (b)). -/
  queue_sorted : QueueSorted s.queue
  /-- QLEN ≤ 2N (R38 (b)). -/
  queue_le : s.queue.length ≤ s.cfg.queueCap
  /-- Queue items fit their widths (R27). -/
  queue_fits : ∀ it ∈ s.queue, it.id.toNat < 2 ^ s.cfg.idxW ∧ it.freq.toNat < 2 ^ s.cfg.freqW
  /-- BITCNT ≤ BITBUF_CAP (R38 (c)). -/
  bits_le : s.bits.length ≤ s.cfg.bitbufCap
  /-- ERR is 0 or a code a command can latch (R134): never 4, never 9 to 15. -/
  err_legal : s.err.toNat ≤ 8 ∧ s.err ≠ 4
  /-- Either no tree, or the tree of the last BUILD (R38 (d), (e)). -/
  tree : NoTree s ∨
    s.root ≠ s.cfg.none ∧ IsTree s.cfg s.arena s.root.toNat s.nleaf.toNat s.nnext.toNat

/-- A run has gone wrong when ERR ≠ 0 at its end (70_reset_and_hazards.md R160). -/
abbrev State.goneWrong (s : State) : Prop := s.err ≠ 0

/-- The order in which items leave the queue inside BUILD (41_queue.md R82): by frequency, and among
equals by ascending node id. -/
abbrev Before (c : Config) (A : Store Node) (i j : Nat) : Prop :=
  nodeFreq c A i < nodeFreq c A j ∨ (nodeFreq c A i = nodeFreq c A j ∧ i < j)

/-- The greedy merge (42_tree_builder.md R85 steps 2 and 3): the children of an internal node `p` are
the first and the second, in that order, of the nodes that had no parent when `p` was made. -/
structure MergesTwoFirst (c : Config) (A : Store Node) (root p : Nat) : Prop where
  first : Before c A (nodeLeft c A p) (nodeRight c A p)
  rest : ∀ i, i < p → Materialised c A i → i = root ∨ p < nodeParent c A i →
    Before c A (nodeRight c A p) i

/-- The walk of PATH from a node to the root (43_code_deriver.md R100), as a relation: the bits in the
order collected. -/
inductive Climbs (s : State) : Index → List Bool → Prop where
  | root (cur : Index) : (arenaGet s cur.toNat).parent = s.cfg.none → Climbs s cur []
  | up (cur p : Index) (rest : List Bool) : (arenaGet s cur.toNat).parent = p → p ≠ s.cfg.none →
      p.toNat < s.cfg.arenaCap → Climbs s p rest →
      Climbs s cur ((if (arenaGet s p.toNat).left = cur then false else true) :: rest)

/-- A well-formed word (30_encoding.md R58, R59, R62), by its fields: a listed opcode, `z` = 0, unused
operand fields 0, used operands in range. -/
def WordWellFormed (c : Config) (w : Word) : Prop :=
  fieldZ w = 0 ∧
    ((fieldOp w ∈ [0x01, 0x21, 0x22, 0x30, 0x51, 0x52] ∧ fieldA w = 0 ∧ fieldB w = 0) ∨
      (fieldOp w = 0x02 ∧ (fieldA w).toNat < 8 ∧ fieldB w = 0) ∨
      (fieldOp w ∈ [0x10, 0x11, 0x40] ∧ (fieldA w).toNat < c.n ∧ fieldB w = 0) ∨
      (fieldOp w = 0x31 ∧ (fieldA w).toNat < 2 * c.n ∧ fieldB w = 0) ∨
      (fieldOp w = 0x50 ∧ (fieldA w).toNat < 2 ∧ fieldB w = 0) ∨
      fieldOp w = 0x20)

/-- The operands of a QPUSH word fit IDX_W and FREQ_W bits, as every word's do at the default widths. Where
they do not, the model keeps their low bits (R56; DEDUCED, log entry 5: R62 reads differently), and a
statement of its own says so. -/
def QueueOperandsFit (c : Config) (w : Word) : Prop :=
  fieldOp w = 0x20 → (fieldA w).toNat < 2 ^ c.idxW ∧ (fieldB w).toNat < 2 ^ c.freqW

/-- The word enters the fault IllegalCommand and changes nothing else (60_exceptions.md R134, R139). -/
def RaisesIllegal (s : State) (w : Word) : Prop :=
  runWord w s = .next { s with err := 8, response := some { err := 8 } }

/-- The word is refused: the latched code in the response, and no state change (60_exceptions.md R140). -/
def IsRefused (s : State) (w : Word) : Prop :=
  runWord w s = .next { s with response := some { err := s.err } }

/-- The event that the next step takes is a reset: the hardware reset or a RESET word (R154). -/
def NextIsReset (s : State) : Prop :=
  s.pending.head? = some .hardwareReset ∨
    ∃ w, s.pending.head? = some (.command w) ∧ decode s.cfg w = .ok .reset

/-- The event that the next step takes is a word that decodes to the command. -/
def NextIs (s : State) (i : Instr) : Prop :=
  ∃ w, s.pending.head? = some (.command w) ∧ decode s.cfg w = .ok i

/-- The whole block has its reset values (10_state.md R37), whatever the configuration, the response and
the pending events. -/
structure IsCleared (s : State) : Prop where
  hist : ∀ i, histGet s i = 0
  parent : ∀ i, (arenaGet s i).parent = s.cfg.none
  left : ∀ i, (arenaGet s i).left = s.cfg.none
  right : ∀ i, (arenaGet s i).right = s.cfg.none
  freq : ∀ i, (arenaGet s i).freq = 0
  queue : s.queue = []
  bits : s.bits = []
  err : s.err = 0
  root : s.root = s.cfg.none
  nleaf : s.nleaf = 0
  nnext : s.nnext.toNat = s.cfg.n
  total : s.total = 0

end Sys2Proof.Machine
end

