-- ==== Sys2Proof/Certificates/Slice0/Obligations.lean ====
section
/-!
DEFINITION. The statements for the provers. Each docstring names the rules of spec/ it comes from. All
are about the machine in any configuration and any state that meets the hypotheses; none is about a
program.
-/

open Sys2Proof Sys2Proof.Machine

/-! ## Encoding (30_encoding.md) -/

/-- R55, R58, R60: the decoder reads back every well-formed command from its encoding, in every
configuration and at every operand value, so no bit of an operand is dropped. A QPUSH whose operands do
not fit the configured widths counts as well formed by log entry 5 (DEDUCED from R56); every other
command's range is R62's. -/
def Obligations.EncodedCommandDecodesBack : Prop :=
  ∀ (c : Config) (i : Instr), i.WellFormed c → decode c (encode i) = .ok i

/-- R58, R59, R62: a word that decodes is the encoding of the command it decodes to, and the command is
well formed: each word has at most one meaning and each command, with its operands as the word has them,
one word. That a QPUSH with operands wider than configured is well formed is log entry 5 (DEDUCED from
R56); two such words may push the same item, since their low bits are kept. -/
def Obligations.DecodedWordIsItsEncoding : Prop :=
  ∀ (c : Config) (w : Word) (i : Instr), decode c w = .ok i → encode i = w ∧ i.WellFormed c

/-- R60: in the default configuration a word that decodes selects exactly one row of the opcode table,
its command's, and a word that does not decode selects none. -/
def Obligations.OpcodeTableSelectsWhatDecodes : Prop :=
  ∀ w : Word,
    (∀ i, decode Config.default w = .ok i →
      (opcodeTable.filter fun r => r.selects w).map (fun r => r.mnemonic) = [i.mnemonic]) ∧
    ((∀ i, decode Config.default w ≠ .ok i) → (opcodeTable.filter fun r => r.selects w) = [])

/-- 95_test_vectors.md section 2.1 and the family files' encodings: words the spec writes out decode as
the spec says. -/
def Obligations.SpecWordsDecodeAsWritten : Prop :=
  decode Config.default 0x0100000000000000 = .ok .reset ∧
  decode Config.default 0x0200000100000000 = .ok (.rdsr 1) ∧
  decode Config.default 0x1000004100000000 = .ok (.acc 0x41) ∧
  decode Config.default 0x1100004100000000 = .ok (.hrd 0x41) ∧
  decode Config.default 0x2000004100000005 = .ok (.qpush 65 5) ∧
  decode Config.default 0x3100010200000000 = .ok (.nrd 258) ∧
  decode Config.default 0x4000004100000000 = .ok (.path 0x41) ∧
  decode Config.default 0x5000000100000000 = .ok (.abit 1) ∧
  decode Config.default 0x0000000000000000 = .error .unknownOpcode ∧
  decode Config.default 0x1001004100000000 = .error .reservedNotZero ∧
  decode Config.default 0x1000004100000001 = .error .unusedNotZero ∧
  decode Config.default 0x1000010000000000 = .error .operandOutOfRange

/-- R55, R59, R62: the word of each command, as a number: the opcode in bits 63 to 56, operand `a` in bits
47 to 32, `b` in bits 31 to 0, every other bit 0, and the operand in its range. -/
def Obligations.CommandsHaveTheTableEncodings : Prop :=
  ∀ (c : Config) (w : Word) (i : Instr), QueueOperandsFit c w →
    (decode c w = .ok i ↔
      match i with
      | .reset => w.toNat = 0x01 * 2 ^ 56
      | .rdsr n => w.toNat = 0x02 * 2 ^ 56 + n.toNat * 2 ^ 32 ∧ n.toNat < 8
      | .acc sym => w.toNat = 0x10 * 2 ^ 56 + sym.toNat * 2 ^ 32 ∧ sym.toNat < c.n
      | .hrd sym => w.toNat = 0x11 * 2 ^ 56 + sym.toNat * 2 ^ 32 ∧ sym.toNat < c.n
      | .qpush id freq => w.toNat = 0x20 * 2 ^ 56 + id.toNat * 2 ^ 32 + freq.toNat
      | .qpop => w.toNat = 0x21 * 2 ^ 56
      | .qempty => w.toNat = 0x22 * 2 ^ 56
      | .build => w.toNat = 0x30 * 2 ^ 56
      | .nrd idx => w.toNat = 0x31 * 2 ^ 56 + idx.toNat * 2 ^ 32 ∧ idx.toNat < 2 * c.n
      | .path sym => w.toNat = 0x40 * 2 ^ 56 + sym.toNat * 2 ^ 32 ∧ sym.toNat < c.n
      | .abit bit => w.toNat = 0x50 * 2 ^ 56 + bit.toNat * 2 ^ 32 ∧ bit.toNat < 2
      | .flush => w.toNat = 0x51 * 2 ^ 56
      | .bsize => w.toNat = 0x52 * 2 ^ 56)

/-- R56, R78, and for operands wider than configured log entry 5 (DEDUCED, where R62 reads differently):
QPUSH takes any id and any frequency and keeps their low IDX_W and FREQ_W bits. Its word decodes, is
refused in the faulted state, faults with QueueFull, and otherwise the kept item stands after every item
of at most its frequency, with nothing else changed. -/
def Obligations.QueueOperandsKeepTheirLowBits : Prop :=
  ∀ (s : State) (w : Word), Inv s → fieldOp w = 0x20 → fieldZ w = 0 →
    decode s.cfg w = .ok (.qpush (fieldA w) (fieldB w)) ∧
    (s.err ≠ 0 → IsRefused s w) ∧
    (s.err = 0 → s.queue.length = 2 * s.cfg.n →
      runWord w s = .next { s with err := 5, response := some { err := 5 } }) ∧
    (s.err = 0 → s.queue.length ≠ 2 * s.cfg.n →
      ∃ lo hi it, s.queue = lo ++ hi ∧ it.id.toNat = (fieldA w).toNat % 2 ^ s.cfg.idxW ∧
        it.freq.toNat = (fieldB w).toNat % 2 ^ s.cfg.freqW ∧
        (∀ x ∈ lo, x.freq.toNat ≤ it.freq.toNat) ∧ (∀ x ∈ hi, it.freq.toNat < x.freq.toNat) ∧
        runWord w s = .next { s with queue := lo ++ it :: hi, response := some { } })

/-! ## One step -/

/-- R5, R58: when the host's next event is a word that decodes to a command, a step is that command's
execution, with the event taken from the pending list and nothing else around it. -/
def Obligations.StepRunsTheDecodedCommand : Prop :=
  ∀ (s : State) (w : Word) (rest : List HostEvent) (i : Instr), s.cfg.WellFormed →
    s.pending = .command w :: rest → decode s.cfg w = .ok i →
    step s = exec i { s with pending := rest }

/-- R58, R140: the four outcomes of a word. In the faulted state a well-formed RESET or RDSR runs and every
other word, well formed or not, is refused with the latched code and no state change; otherwise an
ill-formed word raises IllegalCommand and a well-formed one runs. -/
def Obligations.StepFollowsTheDecodeSkeleton : Prop :=
  ∀ (s : State) (w : Word) (rest : List HostEvent), s.cfg.WellFormed →
    s.pending = .command w :: rest → QueueOperandsFit s.cfg w →
    (s.err ≠ 0 → WordWellFormed s.cfg w → fieldOp w = 0x01 →
      step s = exec .reset { s with pending := rest }) ∧
    (s.err ≠ 0 → WordWellFormed s.cfg w → fieldOp w = 0x02 →
      step s = exec (.rdsr (fieldA w)) { s with pending := rest }) ∧
    (s.err ≠ 0 → ¬ (WordWellFormed s.cfg w ∧ (fieldOp w = 0x01 ∨ fieldOp w = 0x02)) →
      step s = .next { s with pending := rest, response := some { err := s.err } }) ∧
    (s.err = 0 → ¬ WordWellFormed s.cfg w →
      step s = .next { s with pending := rest, err := 8, response := some { err := 8 } }) ∧
    (s.err = 0 → WordWellFormed s.cfg w →
      ∃ i, decode s.cfg w = .ok i ∧ step s = exec i { s with pending := rest })

/-- R158, and the model's choice of log entry 2: with no event pending the block keeps its state. -/
def Obligations.IdleBlockKeepsItsState : Prop :=
  ∀ s : State, s.cfg.WellFormed → s.pending = [] → step s = .next s

/-- R130, R154: the hardware reset, in any state, faulted or not, leaves the reset state and no response;
but for the response it leaves what RESET leaves. Only the configuration and the host's later events
stay. -/
def Obligations.HardwareResetClearsTheBlock : Prop :=
  ∀ (s : State) (rest : List HostEvent), s.cfg.WellFormed → s.pending = .hardwareReset :: rest →
    ∃ t, step s = .next t ∧ IsCleared t ∧ t.response = none ∧ t.cfg = s.cfg ∧ t.pending = rest ∧
      ∃ u, exec .reset { s with pending := rest } = .next u ∧ t = { u with response := none }

/-- R12: exactly the configurations that break one of the six conditions have no step. -/
def Obligations.IllFormedConfigurationHasNoStep : Prop :=
  ∀ s : State,
    (step s = .refused .capacityExceeded ↔
      ¬ (1 ≤ s.cfg.n ∧ 2 * s.cfg.n ≤ 2 ^ (s.cfg.idxW - 1) ∧ s.cfg.idxW ≤ 16 ∧ s.cfg.freqW ≤ 32 ∧
        1 ≤ s.cfg.bitbufCap ∧ s.cfg.bitbufCap ≤ 2 ^ 32 - 1))

/-- R38 (a) to (e), R25 to R27, R81, and the canonical form of the stores (log entry 4): every step keeps
the invariant, from every state that meets it, faulted or not. -/
def Obligations.EveryStepKeepsTheInvariant : Prop :=
  ∀ s t : State, Inv s → step s = .next t → Inv t

/-- R37, R38: the reset state meets the invariant. -/
def Obligations.ResetMeetsTheInvariant : Prop := Inv State.reset

/-- R37: the reset state is the table: every piece of state at its value, and STATUS reads 4. -/
def Obligations.ResetStateIsTheTable : Prop :=
  (∀ i, i < 256 → histGet State.reset i = 0) ∧
  (∀ i, i < 512 → arenaGet State.reset i = ⟨0xFFFF, 0xFFFF, 0xFFFF, 0⟩) ∧
  State.reset.queue = [] ∧ State.reset.bits = [] ∧ State.reset.err = 0 ∧
  State.reset.root = 0xFFFF ∧ State.reset.nleaf = 0 ∧ State.reset.nnext = 0x0100 ∧
  State.reset.total = 0 ∧ statusWord State.reset = 0x00000004

/-- R168 ("Nothing in the block can hang"), R87, R89: from every state that meets the invariant a step
answers a next state: no event, word or command stops the machine. -/
def Obligations.NothingInTheBlockHangs : Prop := ∀ s : State, Inv s → ∃ t, step s = .next t

/-- R142: ERR holds the first fault since reset. A step in the faulted state keeps it, unless the event
is a reset, which clears it. -/
def Obligations.FirstFaultIsKept : Prop :=
  ∀ s t : State, s.err ≠ 0 → step s = .next t →
    (¬ NextIsReset s → t.err = s.err) ∧ (NextIsReset s → t.err = 0)

/-- R139, R135: a word that faults leaves everything but ERR and the response as it was, with its code in
both; and a well-formed command that faults has the code of the one fault that is its own. -/
def Obligations.FaultingCommandChangesNothingElse : Prop :=
  (∀ (w : Word) (s t : State), s.err = 0 → runWord w s = .next t → t.err ≠ 0 →
    t = { s with err := t.err, response := some { err := t.err } } ∧ flagFault t = true) ∧
  (∀ (i : Instr) (s t : State), i.WellFormed s.cfg → s.err = 0 → exec i s = .next t → t.err ≠ 0 →
    match i with
    | .acc _ => t.err = 6
    | .qpush _ _ => t.err = 5
    | .qpop => t.err = 1
    | .build => t.err = 2
    | .path _ => t.err = 3
    | .abit _ => t.err = 7
    | _ => False)

/-- R72: no step lowers a histogram entry unless it is a reset; only ACC changes one, by one. -/
def Obligations.HistogramIsMonotone : Prop :=
  ∀ s t : State, Inv s → step s = .next t →
    (¬ NextIsReset s → ∀ i, (histGet s i).toNat ≤ (histGet t i).toNat) ∧
    (¬ NextIsReset s → (∀ i, histGet t i = histGet s i) ∨
      ∃ sym, NextIs s (.acc sym) ∧
        ∀ i, (histGet t i).toNat = (histGet s i).toNat + if i = sym.toNat then 1 else 0) ∧
    (NextIsReset s → ∀ i, histGet t i = 0)

/-- R41 (its writes), R22, R23, R27, R29, R31 to R33, R39: which command can write which piece of state; no
command writes the configuration or the host's pending events. -/
def Obligations.CommandsWriteOnlyTheirStores : Prop :=
  ∀ (i : Instr) (s t : State), exec i s = .next t →
    t.cfg = s.cfg ∧ t.pending = s.pending ∧
    (i = .reset ∨ (∃ sym, i = .acc sym) ∨ (t.hist = s.hist ∧ t.total = s.total)) ∧
    (i = .reset ∨ i = .build ∨
      (t.arena = s.arena ∧ t.root = s.root ∧ t.nleaf = s.nleaf ∧ t.nnext = s.nnext)) ∧
    (i = .reset ∨ i = .build ∨ i = .qpop ∨ (∃ id freq, i = .qpush id freq) ∨ t.queue = s.queue) ∧
    (i = .reset ∨ i = .flush ∨ (∃ bit, i = .abit bit) ∨ t.bits = s.bits)

/-- R46: the six reading commands leave the state as it was, and repeating one returns the same response,
RDSR in the faulted state too; QPOP and FLUSH remove what they return. -/
def Obligations.ReadingCommandsChangeNothing : Prop :=
  (∀ (i : Instr) (s t : State), s.err = 0 → exec i s = .next t → t.err = 0 →
    (match i with
      | .hrd _ | .nrd _ | .qempty | .bsize | .rdsr _ | .path _ => True
      | _ => False) →
    { t with response := s.response } = s ∧ exec i t = .next t) ∧
  (∀ (n : Index) (s t : State), n.toNat < 8 → exec (.rdsr n) s = .next t →
    { t with response := s.response } = s ∧ exec (.rdsr n) t = .next t) ∧
  (∀ s t : State, s.err = 0 → exec .qpop s = .next t → t.err = 0 →
    ∃ it r, s.queue = it :: t.queue ∧ t.response = some r ∧ r.id = it.id ∧ r.d = it.freq) ∧
  (∀ s t : State, s.err = 0 → exec .flush s = .next t →
    ∃ r, t.response = some r ∧ r.bytes = pack s.bits ∧ t.bits = [])

/-! ## The commands -/

/-- R128, R37: RESET, in every state, faulted or not, answers `err` = 0 and leaves the block cleared,
STATUS reading 4; nothing but the configuration and the host's pending events stays. A RESET word with
a field that is not 0 is illegal, and refused in the faulted state. -/
def Obligations.ResetCommandClearsTheBlock : Prop :=
  ∀ s : State, s.cfg.WellFormed →
    decode s.cfg 0x0100000000000000 = .ok .reset ∧
    (∀ w : Word, fieldOp w = 0x01 → fieldZ w ≠ 0 ∨ fieldA w ≠ 0 ∨ fieldB w ≠ 0 →
      (s.err = 0 → RaisesIllegal s w) ∧ (s.err ≠ 0 → IsRefused s w)) ∧
    ∃ t, exec .reset s = .next t ∧ IsCleared t ∧ statusWord t = 4 ∧ t.response = some { } ∧
      t.cfg = s.cfg ∧ t.pending = s.pending

/-- R129, R34, R35: RDSR. The legal words, the illegal ones, and in every state, faulted or not, each of
the eight status registers with `err` = 0 and no state changed. -/
def Obligations.RdsrReadsTheStatusRegisters : Prop :=
  ∀ (s : State) (n : Index), s.cfg.WellFormed → n.toNat < 8 →
    s.queue.length ≤ s.cfg.queueCap → s.bits.length ≤ s.cfg.bitbufCap →
    (∀ w : Word, fieldOp w = 0x02 → fieldZ w = 0 → fieldB w = 0 → fieldA w = n →
      decode s.cfg w = .ok (.rdsr n)) ∧
    (∀ w : Word, fieldOp w = 0x02 → fieldZ w ≠ 0 ∨ fieldB w ≠ 0 ∨ 8 ≤ (fieldA w).toNat →
      (s.err = 0 → RaisesIllegal s w) ∧ (s.err ≠ 0 → IsRefused s w)) ∧
    ∃ d : Data, exec (.rdsr n) s = .next { s with response := some { d := d } } ∧
      d.toNat =
        if n.toNat = 0 then
          (if s.err ≠ 0 then 1 else 0) + (if s.root ≠ s.cfg.none then 2 else 0) +
            (if s.queue.length = 0 then 4 else 0) + (if s.bits.length ≠ 0 then 8 else 0)
        else if n.toNat = 1 then s.err.toNat
        else if n.toNat = 2 then s.root.toNat
        else if n.toNat = 3 then s.nleaf.toNat
        else if n.toNat = 4 then s.nnext.toNat
        else if n.toNat = 5 then s.queue.length
        else if n.toNat = 6 then s.total.toNat
        else s.bits.length

/-- R70: ACC. The legal words, the illegal ones, FreqOverflow with nothing else changed, and otherwise
one more count of the symbol and of TOTAL, every other count and all other state as before, no flag
changed. -/
def Obligations.AccCountsOneSymbol : Prop :=
  ∀ s : State, Inv s → s.err = 0 →
    (∀ w : Word, fieldOp w = 0x10 → fieldZ w = 0 → fieldB w = 0 → (fieldA w).toNat < s.cfg.n →
      decode s.cfg w = .ok (.acc (fieldA w))) ∧
    (∀ w : Word, fieldOp w = 0x10 → fieldZ w ≠ 0 ∨ fieldB w ≠ 0 ∨ s.cfg.n ≤ (fieldA w).toNat →
      RaisesIllegal s w) ∧
    (∀ sym : Index, sym.toNat < s.cfg.n → s.total.toNat = 2 ^ s.cfg.freqW - 1 →
      exec (.acc sym) s = .next { s with err := 6, response := some { err := 6 } }) ∧
    (∀ sym : Index, sym.toNat < s.cfg.n → s.total.toNat ≠ 2 ^ s.cfg.freqW - 1 →
      ∃ t, exec (.acc sym) s = .next t ∧
        { t with hist := s.hist, total := s.total, response := s.response } = s ∧
        t.response = some { } ∧ t.total.toNat = s.total.toNat + 1 ∧
        (∀ i, (histGet t i).toNat = (histGet s i).toNat + if i = sym.toNat then 1 else 0) ∧
        statusWord t = statusWord s)

/-- R71: HRD. The legal words, the illegal ones, and the count in `d` with no state changed. -/
def Obligations.HrdReadsTheCount : Prop :=
  ∀ s : State, s.cfg.WellFormed → s.err = 0 →
    (∀ w : Word, fieldOp w = 0x11 → fieldZ w = 0 → fieldB w = 0 → (fieldA w).toNat < s.cfg.n →
      decode s.cfg w = .ok (.hrd (fieldA w))) ∧
    (∀ w : Word, fieldOp w = 0x11 → fieldZ w ≠ 0 ∨ fieldB w ≠ 0 ∨ s.cfg.n ≤ (fieldA w).toNat →
      RaisesIllegal s w) ∧
    (∀ sym : Index, sym.toNat < s.cfg.n →
      exec (.hrd sym) s = .next { s with response := some { d := histGet s sym.toNat } })

/-- R75, R78: QPUSH. The legal words, the illegal ones, QueueFull with nothing else changed, and otherwise
the item inserted after every item of at most its frequency, any id and any frequency, with nothing
else changed. -/
def Obligations.QpushInsertsOneItem : Prop :=
  ∀ (s : State) (id : Index) (freq : Freq), Inv s → s.err = 0 → id.toNat < 2 ^ s.cfg.idxW →
    freq.toNat < 2 ^ s.cfg.freqW →
    (∀ w : Word, fieldOp w = 0x20 → fieldZ w = 0 → fieldA w = id → fieldB w = freq →
      decode s.cfg w = .ok (.qpush id freq)) ∧
    (∀ w : Word, fieldOp w = 0x20 → fieldZ w ≠ 0 → RaisesIllegal s w) ∧
    (s.queue.length = 2 * s.cfg.n →
      exec (.qpush id freq) s = .next { s with err := 5, response := some { err := 5 } }) ∧
    (s.queue.length ≠ 2 * s.cfg.n →
      ∃ lo hi t, s.queue = lo ++ hi ∧ (∀ x ∈ lo, x.freq.toNat ≤ freq.toNat) ∧
        (∀ x ∈ hi, freq.toNat < x.freq.toNat) ∧ exec (.qpush id freq) s = .next t ∧
        t = { s with queue := lo ++ ⟨id, freq⟩ :: hi, response := some { } } ∧
        flagQEmpty t = false)

/-- R76, R79: QPOP. The one legal word, the illegal ones, EmptyQueue with nothing else changed, and
otherwise the head removed and returned, with nothing else changed. -/
def Obligations.QpopRemovesTheHead : Prop :=
  ∀ s : State, s.cfg.WellFormed → s.err = 0 →
    decode s.cfg 0x2100000000000000 = .ok .qpop ∧
    (∀ w : Word, fieldOp w = 0x21 → fieldZ w ≠ 0 ∨ fieldA w ≠ 0 ∨ fieldB w ≠ 0 →
      RaisesIllegal s w) ∧
    (s.queue = [] → exec .qpop s = .next { s with err := 1, response := some { err := 1 } }) ∧
    (∀ id freq rest, s.queue = ⟨id, freq⟩ :: rest →
      exec .qpop s = .next { s with queue := rest, response := some { id := id, d := freq } } ∧
      (flagQEmpty { s with queue := rest } = true ↔ rest = []))

/-- R77, R80: QEMPTY. The one legal word, the illegal ones, and 1 in `d` exactly when no items remain, with
no state changed. -/
def Obligations.QemptyTellsEmptiness : Prop :=
  ∀ s : State, s.cfg.WellFormed → s.err = 0 →
    decode s.cfg 0x2200000000000000 = .ok .qempty ∧
    (∀ w : Word, fieldOp w = 0x22 → fieldZ w ≠ 0 ∨ fieldA w ≠ 0 ∨ fieldB w ≠ 0 →
      RaisesIllegal s w) ∧
    exec .qempty s =
      .next { s with response := some { d := if s.queue.length = 0 then 1 else 0 } }

/-- R81, R75, R76: a sorted queue stays sorted under Push and under Pop, and Push keeps push order among
items of one frequency: the new item comes after the old ones of its frequency, the others keep their
order. -/
def Obligations.QueueStaysSortedAndStable : Prop :=
  ∀ (q : List Item) (it : Item), QueueSorted q →
    QueueSorted (push q it) ∧
    (∀ g : Nat, (push q it).filter (fun x => decide (x.freq.toNat = g)) =
      q.filter (fun x => decide (x.freq.toNat = g)) ++ if it.freq.toNat = g then [it] else []) ∧
    (∀ x rest, pop q = some (x, rest) →
      q = x :: rest ∧ QueueSorted rest ∧ ∀ y ∈ rest, x.freq.toNat ≤ y.freq.toNat)

/-- R87, R92, R85 (its faults and frame): BUILD, in every state. The one legal word, the illegal ones,
EmptyAlphabet with nothing else changed when every count is 0, and otherwise a next state after exactly L - 1 merges
with an empty queue, no count, bit or status value but the builder's own changed. -/
def Obligations.BuildCompletes : Prop :=
  ∀ s : State, s.cfg.WellFormed → s.err = 0 →
    decode s.cfg 0x3000000000000000 = .ok .build ∧
    (∀ w : Word, fieldOp w = 0x30 → fieldZ w ≠ 0 ∨ fieldA w ≠ 0 ∨ fieldB w ≠ 0 →
      RaisesIllegal s w) ∧
    ((∀ i, i < s.cfg.n → histGet s i = 0) →
      exec .build s = .next { s with err := 2, response := some { err := 2 } }) ∧
    ((∃ i, i < s.cfg.n ∧ histGet s i ≠ 0) →
      ∃ t L, L = ((List.range s.cfg.n).filter fun i => decide (histGet s i ≠ 0)).length ∧
        exec .build s = .next t ∧
        { t with arena := s.arena, queue := s.queue, root := s.root, nleaf := s.nleaf,
                 nnext := s.nnext, response := s.response } = s ∧
        t.response = some { } ∧ t.queue = [] ∧ t.nleaf.toNat = L ∧
        t.nnext.toNat = s.cfg.n + (L - 1))

/-- R88, R89, R90, R93: what a completed BUILD guarantees. Every internal node is full, its children point
back to it and lie below it, its frequency is the exact sum of theirs; leaves have no children and
their counts; what was not written has its reset value; the root holds TOTAL; TREE is 1. -/
def Obligations.BuildMakesATree : Prop :=
  ∀ s : State, Inv s → s.err = 0 → (∃ i, i < s.cfg.n ∧ histGet s i ≠ 0) →
    ∃ t, exec .build s = .next t ∧
      IsTree s.cfg t.arena t.root.toNat t.nleaf.toNat t.nnext.toNat ∧
      (∀ i, i < s.cfg.n → nodeFreq s.cfg t.arena i = (histGet s i).toNat) ∧
      (∀ i, i < s.cfg.n → histGet s i = 0 →
        arenaGet t i = ⟨s.cfg.none, s.cfg.none, s.cfg.none, 0⟩) ∧
      nodeFreq s.cfg t.arena t.root.toNat = s.total.toNat ∧
      flagTree t = true

/-- R85 (steps 2 and 3), R82: the merges are greedy and their order is fixed. At every internal node the
left child is the first and the right child the second, by frequency and then by ascending id, of the
nodes that had no parent when it was made. -/
def Obligations.BuildMergesTheTwoFirst : Prop :=
  ∀ s : State, Inv s → s.err = 0 → (∃ i, i < s.cfg.n ∧ histGet s i ≠ 0) →
    ∃ t, exec .build s = .next t ∧
      ∀ p, s.cfg.n ≤ p → p < t.nnext.toNat → MergesTwoFirst s.cfg t.arena t.root.toNat p

/-- R94: the arena, ROOT, NLEAF and NNEXT after BUILD are a function of the histogram alone: not of the
arena, the queue, the bits or the status values before it. -/
def Obligations.BuildDependsOnTheHistogramOnly : Prop :=
  ∀ s s' t t' : State, s.cfg = s'.cfg → s.err = 0 → s'.err = 0 →
    (∀ i, i < s.cfg.n → histGet s i = histGet s' i) → (∃ i, i < s.cfg.n ∧ histGet s i ≠ 0) →
    exec .build s = .next t → exec .build s' = .next t' →
    (∀ i, arenaGet t i = arenaGet t' i) ∧ t.root = t'.root ∧ t.nleaf = t'.nleaf ∧
      t.nnext = t'.nnext

/-- R86: NRD. The legal words, the illegal ones, and the four fields of the node with no state changed. -/
def Obligations.NrdReadsOneNode : Prop :=
  ∀ s : State, s.cfg.WellFormed → s.err = 0 →
    (∀ w : Word, fieldOp w = 0x31 → fieldZ w = 0 → fieldB w = 0 → (fieldA w).toNat < 2 * s.cfg.n →
      decode s.cfg w = .ok (.nrd (fieldA w))) ∧
    (∀ w : Word, fieldOp w = 0x31 → fieldZ w ≠ 0 ∨ fieldB w ≠ 0 ∨ 2 * s.cfg.n ≤ (fieldA w).toNat →
      RaisesIllegal s w) ∧
    (∀ (idx : Index) (nd : Node), idx.toNat < 2 * s.cfg.n → arenaGet s idx.toNat = nd →
      exec (.nrd idx) s = .next { s with
        response := some { id := nd.parent, l := nd.left, r := nd.right, d := nd.freq } })

/-- R25: at most N - 1 internal nodes exist, so no node from `2N - 1` up is ever materialised, and
`arena[2N - 1]` keeps its reset value for ever. -/
def Obligations.LastNodeIsNeverWritten : Prop :=
  ∀ s : State, Inv s →
    s.nnext.toNat - s.cfg.n ≤ s.cfg.n - 1 ∧
    (∀ i, Materialised s.cfg s.arena i → i < 2 * s.cfg.n - 1) ∧
    arenaGet s (2 * s.cfg.n - 1) = ⟨s.cfg.none, s.cfg.none, s.cfg.none, 0⟩ ∧
    ∀ t, step s = .next t →
      arenaGet t (2 * s.cfg.n - 1) = ⟨s.cfg.none, s.cfg.none, s.cfg.none, 0⟩

/-- R100: PATH, in every state. The legal words, the illegal ones, SymbolNotInTree with nothing else
changed, and otherwise the bits of the walk to the root, reversed (the one bit 0 when the leaf is the
root), with no state changed. In every state that meets the invariant the walk ends, within NLEAF - 1
steps. -/
def Obligations.PathReturnsTheWalkReversed : Prop :=
  ∀ s : State, s.cfg.WellFormed → s.err = 0 →
    (∀ w : Word, fieldOp w = 0x40 → fieldZ w = 0 → fieldB w = 0 → (fieldA w).toNat < s.cfg.n →
      decode s.cfg w = .ok (.path (fieldA w))) ∧
    (∀ w : Word, fieldOp w = 0x40 → fieldZ w ≠ 0 ∨ fieldB w ≠ 0 ∨ s.cfg.n ≤ (fieldA w).toNat →
      RaisesIllegal s w) ∧
    (∀ sym : Index, sym.toNat < s.cfg.n → (arenaGet s sym.toNat).freq = 0 →
      exec (.path sym) s = .next { s with err := 3, response := some { err := 3 } }) ∧
    (∀ (sym : Index) (acc : List Bool), sym.toNat < s.cfg.n → (arenaGet s sym.toNat).freq ≠ 0 →
      Climbs s sym acc → acc.length ≤ s.cfg.n →
      (acc = [] → exec (.path sym) s =
        .next { s with response := some { d := 1, code := [false] } }) ∧
      (acc ≠ [] → exec (.path sym) s =
        .next { s with
          response := some { d := BitVec.ofNat 32 acc.length, code := acc.reverse } })) ∧
    (Inv s → ∀ sym : Index, sym.toNat < s.cfg.n → (arenaGet s sym.toNat).freq ≠ 0 →
      ∃ acc, Climbs s sym acc ∧ acc.length ≤ s.nleaf.toNat - 1 ∧ acc.length ≤ s.cfg.n)

/-- R101, R104: in a state that meets the invariant PATH of every symbol of the tree completes with a
non-empty code. With two or more active leaves it has at most NLEAF - 1 bits, as many as the leaf's
depth; with one it is the bit 0, the leaf is the root and no internal node exists. -/
def Obligations.CodesHaveTheStatedLengths : Prop :=
  ∀ (s : State) (sym : Index), Inv s → s.err = 0 → sym.toNat < s.cfg.n →
    (arenaGet s sym.toNat).freq ≠ 0 →
    ∃ code acc, exec (.path sym) s = .next { s with
        response := some { d := BitVec.ofNat 32 code.length, code := code } } ∧
      Climbs s sym acc ∧ 1 ≤ code.length ∧
      (2 ≤ s.nleaf.toNat → code.length ≤ s.nleaf.toNat - 1 ∧ code.length ≤ s.cfg.n - 1 ∧
        code.length = acc.length) ∧
      (s.nleaf.toNat = 1 → code = [false] ∧ s.root = sym ∧
        (arenaGet s sym.toNat).parent = s.cfg.none ∧ s.nnext.toNat = s.cfg.n)

/-- R102: PATH of any two symbols of the tree answers, and neither code is a prefix of the other. -/
def Obligations.CodesArePrefixFree : Prop :=
  ∀ (s : State) (sym sym' : Index), Inv s → s.err = 0 → sym ≠ sym' →
    sym.toNat < s.cfg.n → (arenaGet s sym.toNat).freq ≠ 0 →
    sym'.toNat < s.cfg.n → (arenaGet s sym'.toNat).freq ≠ 0 →
    ∃ code code',
      exec (.path sym) s = .next { s with
        response := some { d := BitVec.ofNat 32 code.length, code := code } } ∧
      exec (.path sym') s = .next { s with
        response := some { d := BitVec.ofNat 32 code'.length, code := code' } } ∧
      ¬ code <+: code' ∧ ¬ code' <+: code

/-- R103: the code lengths meet Kraft's equality with two or more active leaves, and with one the sum
is 1/2. -/
def Obligations.CodesMeetKraftsEquality : Prop :=
  ∀ (s : State) (code : Nat → List Bool), Inv s → s.err = 0 → s.root ≠ s.cfg.none →
    (∀ i, i < s.cfg.n → (arenaGet s i).freq ≠ 0 →
      ∃ d, exec (.path (BitVec.ofNat 16 i)) s =
        .next { s with response := some { d := d, code := code i } }) →
    (((List.range s.cfg.n).filter fun i => decide ((arenaGet s i).freq ≠ 0)).map
      fun i => (1 / 2 : ℚ) ^ (code i).length).sum = if s.nleaf.toNat = 1 then 1 / 2 else 1

/-- R105: round trip. The codes of any sequence of symbols of the tree, packed by FLUSH's packing and
walked down from the root, give the sequence back; the padding is ignored. -/
def Obligations.PackedCodesWalkBackToTheSymbols : Prop :=
  ∀ (s : State) (syms : List Index) (code : Index → List Bool), Inv s → s.err = 0 →
    (∀ sym ∈ syms, ∃ d, exec (.path sym) s =
      .next { s with response := some { d := d, code := code sym } }) →
    walkSymbols s syms.length (unpack (pack (syms.flatMap code))) =
      some (syms.map fun sym => sym.toNat)

/-- R110: ABIT. The legal words, the illegal ones, BitBufferFull with nothing else changed, and otherwise
the bit at the end of the buffer with nothing else changed and BITS 1. -/
def Obligations.AbitAppendsOneBit : Prop :=
  ∀ s : State, s.cfg.WellFormed → s.err = 0 →
    (∀ w : Word, fieldOp w = 0x50 → fieldZ w = 0 → fieldB w = 0 → (fieldA w).toNat < 2 →
      decode s.cfg w = .ok (.abit (fieldA w))) ∧
    (∀ w : Word, fieldOp w = 0x50 → fieldZ w ≠ 0 ∨ fieldB w ≠ 0 ∨ 2 ≤ (fieldA w).toNat →
      RaisesIllegal s w) ∧
    (∀ bit : Index, bit.toNat < 2 → s.bits.length = s.cfg.bitbufCap →
      exec (.abit bit) s = .next { s with err := 7, response := some { err := 7 } }) ∧
    (s.bits.length ≠ s.cfg.bitbufCap →
      exec (.abit 0) s = .next { s with bits := s.bits ++ [false], response := some { } } ∧
      exec (.abit 1) s = .next { s with bits := s.bits ++ [true], response := some { } } ∧
      ∀ b, flagBits { s with bits := s.bits ++ [b] } = true)

/-- R111: FLUSH. The one legal word, the illegal ones, and the packed bytes with their number; the buffer
is empty after it and nothing else changes. -/
def Obligations.FlushPacksAndEmpties : Prop :=
  ∀ s : State, s.cfg.WellFormed → s.err = 0 →
    decode s.cfg 0x5100000000000000 = .ok .flush ∧
    (∀ w : Word, fieldOp w = 0x51 → fieldZ w ≠ 0 ∨ fieldA w ≠ 0 ∨ fieldB w ≠ 0 →
      RaisesIllegal s w) ∧
    exec .flush s = .next { s with
      bits := []
      response := some { d := BitVec.ofNat 32 (pack s.bits).length, bytes := pack s.bits } } ∧
    flagBits { s with bits := [] } = false

/-- R113, R43, R114: the packing function. One byte per 8 bits or part of it; bit `7 - j` of byte `k` is bit
`8k + j` of the sequence, or 0 past its end. -/
def Obligations.PackPlacesTheFirstBitOnTop : Prop :=
  ∀ bits : List Bool, (pack bits).length = (bits.length + 7) >>> 3 ∧
    ∀ k j, k < (bits.length + 7) >>> 3 → j < 8 →
      ((pack bits).getD k 0).getLsbD (7 - j) =
        if 8 * k + j < bits.length then bits.getD (8 * k + j) false else false

/-- R112: BSIZE. The one legal word, the illegal ones, and the packed size, which is the number of bytes a
FLUSH in its place would return, with no state changed. -/
def Obligations.BsizeReportsThePackedSize : Prop :=
  ∀ s : State, s.cfg.WellFormed → s.err = 0 → s.bits.length ≤ s.cfg.bitbufCap →
    decode s.cfg 0x5200000000000000 = .ok .bsize ∧
    (∀ w : Word, fieldOp w = 0x52 → fieldZ w ≠ 0 ∨ fieldA w ≠ 0 ∨ fieldB w ≠ 0 →
      RaisesIllegal s w) ∧
    ∃ d : Data, exec .bsize s = .next { s with response := some { d := d } } ∧
      d.toNat = (s.bits.length + 7) >>> 3 ∧
      ∀ t r, exec .flush s = .next t → t.response = some r → r.d = d

/-! ## The host's pseudo-commands (45_encoder_pseudo.md) -/

/-- R120: ACCUMULATE adds to each entry the number of its occurrences and to TOTAL the length, whatever
the order of the bytes, and changes nothing else. -/
def Obligations.AccumulateCountsEveryByte : Prop :=
  ∀ (s : State) (bytes : List Index), Inv s → s.err = 0 → (∀ b ∈ bytes, b.toNat < s.cfg.n) →
    s.total.toNat + bytes.length ≤ 2 ^ s.cfg.freqW - 1 →
    ∃ t, runAll (accumulateSeq bytes) s = .next t ∧
      { t with hist := s.hist, total := s.total, response := s.response } = s ∧
      (∀ i, (histGet t i).toNat =
        (histGet s i).toNat + bytes.countP fun b => decide (b.toNat = i)) ∧
      t.total.toNat = s.total.toNat + bytes.length

/-- R121: APPENDBITS appends the sequence in order and changes nothing else. -/
def Obligations.AppendBitsAppendsInOrder : Prop :=
  ∀ (s : State) (seq : List Bool), s.err = 0 → s.bits.length + seq.length ≤ s.cfg.bitbufCap →
    ∃ t, runAll (appendBitsSeq seq) s = .next t ∧ t.bits = s.bits ++ seq ∧
      { t with bits := s.bits, response := s.response } = s

/-- R124 (n = 0): ENCODE of the empty input, from a state with no counts: BUILD faults with EmptyAlphabet and
FLUSH is refused with the same code. -/
def Obligations.EncodeOfNothingFaults : Prop :=
  ∀ s : State, s.cfg.WellFormed → s.err = 0 → (∀ i, i < s.cfg.n → histGet s i = 0) →
    encodeBytes [] s = .next { s with err := 2, response := some { err := 2 } }

/-- R123, R124, R125, R105: ENCODE of a non-empty input, from a state with no counts and no pending bits,
raises no fault, and the bytes of its last response walk back to the input. The room asked for in
the bit buffer is N bits a byte, which no code exceeds. -/
def Obligations.EncodeRoundTrips : Prop :=
  ∀ (s : State) (bytes : List Index), Inv s → s.err = 0 → s.total = 0 → s.bits = [] →
    bytes ≠ [] → (∀ b ∈ bytes, b.toNat < s.cfg.n) → bytes.length ≤ 2 ^ s.cfg.freqW - 1 →
    bytes.length * s.cfg.n ≤ s.cfg.bitbufCap →
    ∃ t r, encodeBytes bytes s = .next t ∧ t.err = 0 ∧ t.bits = [] ∧ t.response = some r ∧
      walkSymbols t bytes.length (unpack r.bytes) = some (bytes.map fun b => b.toNat)
end

