-- ==== Sys2Proof/Laws/Params.lean ====
section
/-!
SUPPORT. What a well-formed configuration gives (00_scope.md R12): the bounds on N, NONE as a number,
and numbers that fit their widths surviving the narrowing.
-/

namespace Sys2Proof

/-- The six conditions of R12. -/
theorem Config.wellFormed_iff (c : Config) :
    c.WellFormed ↔ 1 ≤ c.n ∧ 2 * c.n ≤ 2 ^ (c.idxW - 1) ∧ c.idxW ≤ 16 ∧ c.freqW ≤ 32 ∧
      1 ≤ c.bitbufCap ∧ c.bitbufCap ≤ 2 ^ 32 - 1 := by
  simp [Config.WellFormed, Config.wellFormed, and_assoc]

theorem Config.default_wellFormed : Config.default.WellFormed := by decide

theorem pow_le_of_le {w k : Nat} (h : w ≤ k) : (2 : Nat) ^ w ≤ 2 ^ k :=
  Nat.pow_le_pow_right (by decide) h

/-- Every node index is below half the index range, so it is non-negative as a signed number (R7,
R12). -/
theorem Config.arena_lt (c : Config) (h : c.WellFormed) : 2 * (2 * c.n) ≤ 2 ^ c.idxW := by
  obtain ⟨h1, h2, -⟩ := c.wellFormed_iff.1 h
  have hw : c.idxW ≠ 0 := by
    intro h0
    rw [h0] at h2
    simp at h2
    omega
  obtain ⟨w, hw⟩ := Nat.exists_eq_succ_of_ne_zero hw
  rw [hw] at h2 ⊢
  simp only [Nat.succ_eq_add_one, Nat.add_sub_cancel] at h2
  rw [Nat.succ_eq_add_one, Nat.pow_succ]
  omega

theorem Config.pow_idx_le (c : Config) (h : c.WellFormed) : 2 ^ c.idxW ≤ 2 ^ 16 :=
  pow_le_of_le (c.wellFormed_iff.1 h).2.2.1

theorem Config.pow_freq_le (c : Config) (h : c.WellFormed) : 2 ^ c.freqW ≤ 2 ^ 32 :=
  pow_le_of_le (c.wellFormed_iff.1 h).2.2.2.1

/-- A node index fits IDX_W bits. -/
theorem Config.index_lt (c : Config) (h : c.WellFormed) {i : Nat} (hi : i < 2 * c.n) :
    i < 2 ^ c.idxW := by
  have := c.arena_lt h
  omega

/-- NONE as a number. -/
theorem Config.none_toNat (c : Config) (h : c.WellFormed) : c.none.toNat = 2 ^ c.idxW - 1 := by
  have h1 := c.pow_idx_le h
  have h2 : 0 < 2 ^ c.idxW := Nat.pos_of_ne_zero (by simp)
  simp only [Config.none, BitVec.toNat_ofNat]
  exact Nat.mod_eq_of_lt (by omega)

/-- NONE is no node index (R8). -/
theorem Config.lt_none (c : Config) (h : c.WellFormed) {i : Nat} (hi : i < 2 * c.n) :
    i < c.none.toNat := by
  rw [c.none_toNat h]
  have := c.arena_lt h
  have := (c.wellFormed_iff.1 h).1
  omega

/-- Every narrowed index fits. -/
theorem Config.toIndex_toNat_mod (c : Config) (h : c.WellFormed) (k : Nat) :
    (c.toIndex k).toNat = k % 2 ^ c.idxW := by
  have h1 := c.pow_idx_le h
  have h2 : k % 2 ^ c.idxW < 2 ^ c.idxW := Nat.mod_lt _ (Nat.pos_of_ne_zero (by simp))
  simp only [Config.toIndex, BitVec.toNat_ofNat]
  exact Nat.mod_eq_of_lt (by omega)

/-- An index that fits survives the narrowing. -/
theorem Config.toIndex_toNat (c : Config) (h : c.WellFormed) {k : Nat} (hk : k < 2 ^ c.idxW) :
    (c.toIndex k).toNat = k := by
  rw [c.toIndex_toNat_mod h, Nat.mod_eq_of_lt hk]

/-- Every narrowed frequency fits. -/
theorem Config.toFreq_toNat_mod (c : Config) (h : c.WellFormed) (k : Nat) :
    (c.toFreq k).toNat = k % 2 ^ c.freqW := by
  have h1 := c.pow_freq_le h
  have h2 : k % 2 ^ c.freqW < 2 ^ c.freqW := Nat.mod_lt _ (Nat.pos_of_ne_zero (by simp))
  simp only [Config.toFreq, BitVec.toNat_ofNat]
  exact Nat.mod_eq_of_lt (by omega)

theorem Config.lt_pow_freq_iff (c : Config) {k : Nat} : k < 2 ^ c.freqW ↔ k ≤ c.freqMax := by
  have h2 : 0 < 2 ^ c.freqW := Nat.pos_of_ne_zero (by simp)
  unfold Config.freqMax
  omega

/-- A frequency that fits survives the narrowing. -/
theorem Config.toFreq_toNat (c : Config) (h : c.WellFormed) {k : Nat} (hk : k ≤ c.freqMax) :
    (c.toFreq k).toNat = k := by
  rw [c.toFreq_toNat_mod h, Nat.mod_eq_of_lt (c.lt_pow_freq_iff.2 hk)]

end Sys2Proof
end

