-- ==== Sys2Proof/Laws/State.lean ====
section
/-!
SUPPORT. One lemma per field of State per update of it, each true by unfolding, so that no later
proof unfolds a record update.
-/

namespace Sys2Proof.Machine

@[simp] theorem respond_cfg (r : Response) (s : State) : (respond r s).cfg = s.cfg := rfl
@[simp] theorem respond_hist (r : Response) (s : State) : (respond r s).hist = s.hist := rfl
@[simp] theorem respond_arena (r : Response) (s : State) : (respond r s).arena = s.arena := rfl
@[simp] theorem respond_queue (r : Response) (s : State) : (respond r s).queue = s.queue := rfl
@[simp] theorem respond_bits (r : Response) (s : State) : (respond r s).bits = s.bits := rfl
@[simp] theorem respond_err (r : Response) (s : State) : (respond r s).err = s.err := rfl
@[simp] theorem respond_root (r : Response) (s : State) : (respond r s).root = s.root := rfl
@[simp] theorem respond_nleaf (r : Response) (s : State) : (respond r s).nleaf = s.nleaf := rfl
@[simp] theorem respond_nnext (r : Response) (s : State) : (respond r s).nnext = s.nnext := rfl
@[simp] theorem respond_total (r : Response) (s : State) : (respond r s).total = s.total := rfl
@[simp] theorem respond_response (r : Response) (s : State) : (respond r s).response = some r := rfl
@[simp] theorem respond_pending (r : Response) (s : State) : (respond r s).pending = s.pending := rfl

@[simp] theorem histSet_cfg (s : State) (i : Nat) (v : Freq) : (histSet s i v).cfg = s.cfg := rfl
@[simp] theorem histSet_hist (s : State) (i : Nat) (v : Freq) : (histSet s i v).hist = Store.set 0 s.hist i v := rfl
@[simp] theorem histSet_arena (s : State) (i : Nat) (v : Freq) : (histSet s i v).arena = s.arena := rfl
@[simp] theorem histSet_queue (s : State) (i : Nat) (v : Freq) : (histSet s i v).queue = s.queue := rfl
@[simp] theorem histSet_bits (s : State) (i : Nat) (v : Freq) : (histSet s i v).bits = s.bits := rfl
@[simp] theorem histSet_err (s : State) (i : Nat) (v : Freq) : (histSet s i v).err = s.err := rfl
@[simp] theorem histSet_root (s : State) (i : Nat) (v : Freq) : (histSet s i v).root = s.root := rfl
@[simp] theorem histSet_nleaf (s : State) (i : Nat) (v : Freq) : (histSet s i v).nleaf = s.nleaf := rfl
@[simp] theorem histSet_nnext (s : State) (i : Nat) (v : Freq) : (histSet s i v).nnext = s.nnext := rfl
@[simp] theorem histSet_total (s : State) (i : Nat) (v : Freq) : (histSet s i v).total = s.total := rfl
@[simp] theorem histSet_response (s : State) (i : Nat) (v : Freq) : (histSet s i v).response = s.response := rfl
@[simp] theorem histSet_pending (s : State) (i : Nat) (v : Freq) : (histSet s i v).pending = s.pending := rfl

@[simp] theorem accumulate_cfg (i : Nat) (s : State) : (accumulate i s).cfg = s.cfg := rfl
@[simp] theorem accumulate_hist (i : Nat) (s : State) : (accumulate i s).hist = Store.set 0 s.hist i (countUp s.cfg (histGet s i)) := rfl
@[simp] theorem accumulate_arena (i : Nat) (s : State) : (accumulate i s).arena = s.arena := rfl
@[simp] theorem accumulate_queue (i : Nat) (s : State) : (accumulate i s).queue = s.queue := rfl
@[simp] theorem accumulate_bits (i : Nat) (s : State) : (accumulate i s).bits = s.bits := rfl
@[simp] theorem accumulate_err (i : Nat) (s : State) : (accumulate i s).err = s.err := rfl
@[simp] theorem accumulate_root (i : Nat) (s : State) : (accumulate i s).root = s.root := rfl
@[simp] theorem accumulate_nleaf (i : Nat) (s : State) : (accumulate i s).nleaf = s.nleaf := rfl
@[simp] theorem accumulate_nnext (i : Nat) (s : State) : (accumulate i s).nnext = s.nnext := rfl
@[simp] theorem accumulate_total (i : Nat) (s : State) : (accumulate i s).total = countUp s.cfg s.total := rfl
@[simp] theorem accumulate_response (i : Nat) (s : State) : (accumulate i s).response = s.response := rfl
@[simp] theorem accumulate_pending (i : Nat) (s : State) : (accumulate i s).pending = s.pending := rfl

@[simp] theorem clearBlock_cfg (s : State) : (clearBlock s).cfg = s.cfg := rfl
@[simp] theorem clearBlock_hist (s : State) : (clearBlock s).hist = [] := rfl
@[simp] theorem clearBlock_arena (s : State) : (clearBlock s).arena = [] := rfl
@[simp] theorem clearBlock_queue (s : State) : (clearBlock s).queue = [] := rfl
@[simp] theorem clearBlock_bits (s : State) : (clearBlock s).bits = [] := rfl
@[simp] theorem clearBlock_err (s : State) : (clearBlock s).err = 0 := rfl
@[simp] theorem clearBlock_root (s : State) : (clearBlock s).root = s.cfg.none := rfl
@[simp] theorem clearBlock_nleaf (s : State) : (clearBlock s).nleaf = 0 := rfl
@[simp] theorem clearBlock_nnext (s : State) : (clearBlock s).nnext = s.cfg.toIndex s.cfg.n := rfl
@[simp] theorem clearBlock_total (s : State) : (clearBlock s).total = 0 := rfl
@[simp] theorem clearBlock_response (s : State) : (clearBlock s).response = s.response := rfl
@[simp] theorem clearBlock_pending (s : State) : (clearBlock s).pending = s.pending := rfl

@[simp] theorem hardwareReset_cfg (s : State) : (hardwareReset s).cfg = s.cfg := rfl
@[simp] theorem hardwareReset_hist (s : State) : (hardwareReset s).hist = [] := rfl
@[simp] theorem hardwareReset_arena (s : State) : (hardwareReset s).arena = [] := rfl
@[simp] theorem hardwareReset_queue (s : State) : (hardwareReset s).queue = [] := rfl
@[simp] theorem hardwareReset_bits (s : State) : (hardwareReset s).bits = [] := rfl
@[simp] theorem hardwareReset_err (s : State) : (hardwareReset s).err = 0 := rfl
@[simp] theorem hardwareReset_root (s : State) : (hardwareReset s).root = s.cfg.none := rfl
@[simp] theorem hardwareReset_nleaf (s : State) : (hardwareReset s).nleaf = 0 := rfl
@[simp] theorem hardwareReset_nnext (s : State) : (hardwareReset s).nnext = s.cfg.toIndex s.cfg.n := rfl
@[simp] theorem hardwareReset_total (s : State) : (hardwareReset s).total = 0 := rfl
@[simp] theorem hardwareReset_response (s : State) : (hardwareReset s).response = none := rfl
@[simp] theorem hardwareReset_pending (s : State) : (hardwareReset s).pending = s.pending := rfl

@[simp] theorem presentWord_cfg (w : Word) (s : State) : (presentWord w s).cfg = s.cfg := rfl
@[simp] theorem presentWord_hist (w : Word) (s : State) : (presentWord w s).hist = s.hist := rfl
@[simp] theorem presentWord_arena (w : Word) (s : State) : (presentWord w s).arena = s.arena := rfl
@[simp] theorem presentWord_queue (w : Word) (s : State) : (presentWord w s).queue = s.queue := rfl
@[simp] theorem presentWord_bits (w : Word) (s : State) : (presentWord w s).bits = s.bits := rfl
@[simp] theorem presentWord_err (w : Word) (s : State) : (presentWord w s).err = s.err := rfl
@[simp] theorem presentWord_root (w : Word) (s : State) : (presentWord w s).root = s.root := rfl
@[simp] theorem presentWord_nleaf (w : Word) (s : State) : (presentWord w s).nleaf = s.nleaf := rfl
@[simp] theorem presentWord_nnext (w : Word) (s : State) : (presentWord w s).nnext = s.nnext := rfl
@[simp] theorem presentWord_total (w : Word) (s : State) : (presentWord w s).total = s.total := rfl
@[simp] theorem presentWord_response (w : Word) (s : State) : (presentWord w s).response = s.response := rfl
@[simp] theorem presentWord_pending (w : Word) (s : State) : (presentWord w s).pending = .command w :: s.pending := rfl

@[simp] theorem initial_cfg (c : Config) : (State.initial c).cfg = c := rfl
@[simp] theorem initial_hist (c : Config) : (State.initial c).hist = [] := rfl
@[simp] theorem initial_arena (c : Config) : (State.initial c).arena = [] := rfl
@[simp] theorem initial_queue (c : Config) : (State.initial c).queue = [] := rfl
@[simp] theorem initial_bits (c : Config) : (State.initial c).bits = [] := rfl
@[simp] theorem initial_err (c : Config) : (State.initial c).err = 0 := rfl
@[simp] theorem initial_root (c : Config) : (State.initial c).root = c.none := rfl
@[simp] theorem initial_nleaf (c : Config) : (State.initial c).nleaf = 0 := rfl
@[simp] theorem initial_nnext (c : Config) : (State.initial c).nnext = c.toIndex c.n := rfl
@[simp] theorem initial_total (c : Config) : (State.initial c).total = 0 := rfl
@[simp] theorem initial_response (c : Config) : (State.initial c).response = none := rfl
@[simp] theorem initial_pending (c : Config) : (State.initial c).pending = [] := rfl

theorem histGet_eq (s : State) (i : Nat) : histGet s i = Store.get 0 s.hist i := rfl

theorem arenaGet_eq (s : State) (i : Nat) : arenaGet s i = nodeGet s.cfg s.arena i := rfl

/-- RESET leaves the block of its configuration as it is right after reset. -/
theorem clearBlock_eq_initial (s : State) :
    clearBlock s =
      { State.initial s.cfg with response := s.response, pending := s.pending } := rfl

end Sys2Proof.Machine
end

