-- ==== Sys2Proof/Laws/Store.lean ====
section
/-!
SUPPORT. The laws of element-indexed stores: a read after a write, the canonical form kept by every
operation, and equal reads of canonical stores meaning equal stores.
-/

namespace Sys2Proof.Machine

variable {α : Type} [DecidableEq α] {d : α}

omit [DecidableEq α] in
@[simp] theorem Store.get_nil (i : Nat) : Store.get d [] i = d := rfl

omit [DecidableEq α] in
theorem Store.get_pair (i j : Nat) (v : α) (m : Store α) :
    Store.get d ((j, v) :: m) i = if j = i then v else Store.get d m i := rfl

theorem Store.wfFrom_pair {bound lo j : Nat} {v : α} {m : Store α} :
    Store.wfFrom d bound lo ((j, v) :: m) = true ↔
      lo ≤ j ∧ j < bound ∧ v ≠ d ∧ Store.wfFrom d bound (j + 1) m = true := by
  simp [Store.wfFrom, and_assoc]

theorem Store.wfFrom_mono {bound lo lo' : Nat} {m : Store α} (h : Store.wfFrom d bound lo m = true)
    (hl : lo' ≤ lo) : Store.wfFrom d bound lo' m = true := by
  cases m with
  | nil => rfl
  | cons p m =>
    obtain ⟨j, v⟩ := p
    rw [Store.wfFrom_pair] at h ⊢
    exact ⟨by omega, h.2⟩

/-- Below its first index a canonical store reads as the reset value. -/
theorem Store.get_of_lt {bound lo i : Nat} {m : Store α} (h : Store.wfFrom d bound lo m = true)
    (hi : i < lo) : Store.get d m i = d := by
  induction m generalizing lo with
  | nil => rfl
  | cons p m ih =>
    obtain ⟨j, v⟩ := p
    rw [Store.wfFrom_pair] at h
    rw [Store.get_pair, if_neg (by omega)]
    exact ih h.2.2.2 (by omega)

/-- An index at or past the bound reads as the reset value. -/
theorem Store.get_of_bound {bound lo i : Nat} {m : Store α} (h : Store.wfFrom d bound lo m = true)
    (hi : bound ≤ i) : Store.get d m i = d := by
  induction m generalizing lo with
  | nil => rfl
  | cons p m ih =>
    obtain ⟨j, v⟩ := p
    rw [Store.wfFrom_pair] at h
    rw [Store.get_pair, if_neg (by omega)]
    exact ih h.2.2.2

theorem Store.get_cons_same {bound lo i : Nat} {v : α} {m : Store α}
    (h : Store.wfFrom d bound lo m = true) (hi : i < lo) :
    Store.get d (Store.cons d i v m) i = v := by
  unfold Store.cons
  split
  · next hv => rw [hv]; exact Store.get_of_lt h hi
  · simp [Store.get_pair]

theorem Store.get_cons_other {i k : Nat} {v : α} {m : Store α} (hk : k ≠ i) :
    Store.get d (Store.cons d i v m) k = Store.get d m k := by
  unfold Store.cons
  split
  · rfl
  · simp [Store.get_pair, Ne.symm hk]

theorem Store.wfFrom_cons {bound lo i : Nat} {v : α} {m : Store α} (hb : i < bound) (hl : lo ≤ i)
    (h : Store.wfFrom d bound (i + 1) m = true) :
    Store.wfFrom d bound lo (Store.cons d i v m) = true := by
  unfold Store.cons
  split
  · exact Store.wfFrom_mono h (by omega)
  · next hv => exact Store.wfFrom_pair.2 ⟨hl, hb, hv, h⟩

/-- A write keeps the canonical form. -/
theorem Store.wfFrom_set {bound lo i : Nat} {v : α} {m : Store α}
    (h : Store.wfFrom d bound lo m = true) (hb : i < bound) (hl : lo ≤ i) :
    Store.wfFrom d bound lo (Store.set d m i v) = true := by
  induction m generalizing lo with
  | nil => exact Store.wfFrom_cons hb hl rfl
  | cons p m ih =>
    obtain ⟨j, u⟩ := p
    rw [Store.wfFrom_pair] at h
    unfold Store.set
    split
    · exact Store.wfFrom_cons hb hl (Store.wfFrom_pair.2 ⟨by omega, h.2⟩)
    · split
      · next hij => subst hij; exact Store.wfFrom_cons hb hl h.2.2.2
      · exact Store.wfFrom_pair.2 ⟨h.1, h.2.1, h.2.2.1, ih h.2.2.2 (by omega)⟩

/-- Read after a write to the same index, in a canonical store. -/
theorem Store.get_set_same {bound lo i : Nat} {v : α} {m : Store α}
    (h : Store.wfFrom d bound lo m = true) : Store.get d (Store.set d m i v) i = v := by
  induction m generalizing lo with
  | nil => exact Store.get_cons_same (bound := 0) (lo := i + 1) rfl (by omega)
  | cons p m ih =>
    obtain ⟨j, u⟩ := p
    rw [Store.wfFrom_pair] at h
    unfold Store.set
    split
    · next hij =>
      exact Store.get_cons_same (Store.wfFrom_pair.2 ⟨(le_refl j), h.2⟩) hij
    · split
      · next hij => subst hij; exact Store.get_cons_same h.2.2.2 (by omega)
      · next hij => rw [Store.get_pair, if_neg (Ne.symm hij)]; exact ih h.2.2.2

/-- A write leaves every other index alone. -/
theorem Store.get_set_other {i k : Nat} {v : α} {m : Store α} (hk : k ≠ i) :
    Store.get d (Store.set d m i v) k = Store.get d m k := by
  induction m with
  | nil => exact Store.get_cons_other hk
  | cons p m ih =>
    obtain ⟨j, u⟩ := p
    unfold Store.set
    split
    · exact Store.get_cons_other hk
    · split
      · next hij =>
        subst hij
        rw [Store.get_cons_other hk, Store.get_pair, if_neg (Ne.symm hk)]
      · rw [Store.get_pair, Store.get_pair, ih]

/-- Equal reads of canonical stores mean equal stores. -/
theorem Store.ext_of_get {bound lo : Nat} {m m' : Store α} (h : Store.wfFrom d bound lo m = true)
    (h' : Store.wfFrom d bound lo m' = true) (hg : ∀ i, Store.get d m i = Store.get d m' i) :
    m = m' := by
  induction m generalizing m' lo with
  | nil =>
    cases m' with
    | nil => rfl
    | cons p m' =>
      obtain ⟨j, v⟩ := p
      rw [Store.wfFrom_pair] at h'
      have := hg j
      simp only [Store.get_nil, Store.get_pair, if_true] at this
      exact absurd this.symm h'.2.2.1
  | cons p m ih =>
    obtain ⟨j, v⟩ := p
    rw [Store.wfFrom_pair] at h
    cases m' with
    | nil =>
      have := hg j
      simp only [Store.get_nil, Store.get_pair, if_true] at this
      exact absurd this h.2.2.1
    | cons p' m' =>
      obtain ⟨j', v'⟩ := p'
      rw [Store.wfFrom_pair] at h'
      have hj : j = j' := by
        rcases Nat.lt_trichotomy j j' with hlt | heq | hgt
        · have := hg j
          rw [Store.get_pair, if_pos rfl, Store.get_pair, if_neg (by omega),
            Store.get_of_lt h'.2.2.2 (by omega)] at this
          exact absurd this h.2.2.1
        · exact heq
        · have := hg j'
          rw [Store.get_pair, if_neg (by omega), Store.get_pair, if_pos rfl,
            Store.get_of_lt h.2.2.2 (by omega)] at this
          exact absurd this.symm h'.2.2.1
      subst hj
      have hv : v = v' := by
        have := hg j
        simpa only [Store.get_pair, if_true] using this
      subst hv
      have : m = m' := by
        refine ih h.2.2.2 h'.2.2.2 fun i => ?_
        rcases Nat.lt_or_ge i (j + 1) with hi | hi
        · rw [Store.get_of_lt h.2.2.2 hi, Store.get_of_lt h'.2.2.2 hi]
        · have := hg i
          rwa [Store.get_pair, if_neg (by omega), Store.get_pair, if_neg (by omega)] at this
      rw [this]

/-- The empty store is canonical: the reset contents of HIST and ARENA. -/
theorem Memory.wf_nil (bound : Nat) : Memory.wf d bound [] = true := rfl

/-- A write inside the store keeps the canonical form. -/
theorem Memory.wf_set {bound i : Nat} {v : α} {m : Store α} (h : Memory.wf d bound m = true)
    (hb : i < bound) : Memory.wf d bound (Store.set d m i v) = true :=
  Store.wfFrom_set h hb (Nat.zero_le i)

/-- What a write does, at every index. -/
theorem Memory.get_set {bound i k : Nat} {v : α} {m : Store α} (h : Memory.wf d bound m = true) :
    Store.get d (Store.set d m i v) k = if k = i then v else Store.get d m k := by
  split
  · next hk => subst hk; exact Store.get_set_same h
  · next hk => exact Store.get_set_other hk

end Sys2Proof.Machine
end

