-- ==== Sys2Proof/Laws/Ops.lean ====
section
/-!
SUPPORT. One lemma for each shared operation, saying once everything it can do: the skeleton of the
commands, fault entry, refusal, and the accesses to HIST and ARENA.
-/

namespace Sys2Proof.Machine

theorem flagFault_eq_true (s : State) : flagFault s = true ↔ s.err ≠ 0 := by simp [flagFault]

theorem flagFault_eq_false (s : State) : flagFault s = false ↔ s.err = 0 := by simp [flagFault]

/-- What a faulting command leaves (60_exceptions.md R139). -/
def faulted (k : FaultKind) (s : State) : State :=
  { s with err := k.code, response := some { err := k.code } }

/-- What a refused command leaves (60_exceptions.md R140). -/
def refusedState (s : State) : State := { s with response := some { err := s.err } }

theorem raise_eq (k : FaultKind) (s : State) : raise k s = .next (faulted k s) := rfl

theorem refuse_eq (s : State) : refuse s = .next (refusedState s) := rfl

/-- The skeleton with no fault latched and legal operands: the body runs. -/
theorem guarded_run {legal : Bool} {s : State} {body : Outcome} (he : s.err = 0)
    (hl : legal = true) : guarded legal s body = body := by
  simp [guarded, flagFault, he, hl]

/-- The skeleton in the faulted state: refused. -/
theorem guarded_faulted {legal : Bool} {s : State} {body : Outcome} (he : s.err ≠ 0) :
    guarded legal s body = .next (refusedState s) := by
  rw [guarded, if_pos ((flagFault_eq_true s).2 he), refuse_eq]

/-- The skeleton with no fault latched and an operand out of range: IllegalCommand. -/
theorem guarded_illegal {legal : Bool} {s : State} {body : Outcome} (he : s.err = 0)
    (hl : legal = false) : guarded legal s body = .next (faulted .illegalCommand s) := by
  simp [guarded, flagFault, he, hl, raise_eq]

/-- Everything the skeleton can do. -/
theorem guarded_cases (legal : Bool) (s : State) (body : Outcome) :
    (s.err ≠ 0 ∧ guarded legal s body = .next (refusedState s)) ∨
      (s.err = 0 ∧ legal = false ∧ guarded legal s body = .next (faulted .illegalCommand s)) ∨
      (s.err = 0 ∧ legal = true ∧ guarded legal s body = body) := by
  by_cases he : s.err = 0
  · cases legal with
    | false => exact .inr (.inl ⟨he, rfl, guarded_illegal he rfl⟩)
    | true => exact .inr (.inr ⟨he, rfl, guarded_run he rfl⟩)
  · exact .inl ⟨he, guarded_faulted he⟩

/-- Everything an illegal word can do. -/
theorem illegal_cases (s : State) :
    (s.err ≠ 0 ∧ illegal s = .next (refusedState s)) ∨
      (s.err = 0 ∧ illegal s = .next (faulted .illegalCommand s)) := by
  by_cases he : s.err = 0
  · exact .inr ⟨he, by simp [illegal, flagFault, he, raise_eq]⟩
  · exact .inl ⟨he, by
      rw [illegal, if_pos ((flagFault_eq_true s).2 he), refuse_eq]⟩

/-- HIST after a write, at every symbol. -/
theorem histGet_histSet {s : State} (h : Memory.wf 0 s.cfg.n s.hist = true) (i k : Nat) (v : Freq) :
    histGet (histSet s i v) k = if k = i then v else histGet s k :=
  Memory.get_set h

/-- ARENA after a write, at every node. -/
theorem nodeGet_nodeSet {c : Config} {A : Store Node} {bound : Nat}
    (h : Memory.wf (nodeReset c) bound A = true) (i k : Nat) (v : Node) :
    nodeGet c (nodeSet c A i v) k = if k = i then v else nodeGet c A k :=
  Memory.get_set h

/-- A node write inside the arena keeps its canonical form. -/
theorem nodeSet_wf {c : Config} {A : Store Node} {bound i : Nat} {v : Node}
    (h : Memory.wf (nodeReset c) bound A = true) (hi : i < bound) :
    Memory.wf (nodeReset c) bound (nodeSet c A i v) = true :=
  Memory.wf_set h hi

@[simp] theorem nodeGet_nil (c : Config) (i : Nat) : nodeGet c [] i = nodeReset c := rfl

/-- ARENA after a change of one parent. -/
theorem nodeGet_setParent {c : Config} {A : Store Node} {bound : Nat}
    (h : Memory.wf (nodeReset c) bound A = true) (i k : Nat) (p : Index) :
    nodeGet c (setParent c A i p) k =
      if k = i then { nodeGet c A i with parent := p } else nodeGet c A k :=
  nodeGet_nodeSet h i k _

theorem setParent_wf {c : Config} {A : Store Node} {bound i : Nat} {p : Index}
    (h : Memory.wf (nodeReset c) bound A = true) (hi : i < bound) :
    Memory.wf (nodeReset c) bound (setParent c A i p) = true :=
  nodeSet_wf h hi

end Sys2Proof.Machine
end

