-- ==== Sys2Proof/Laws/Queue.lean ====
section
/-!
SUPPORT. The laws of the queue primitives (41_queue.md R75 to R77, R81): Push as a split of a sorted
queue, its length, its members, sortedness under any order that Push respects, and stability.
-/

namespace Sys2Proof.Machine

theorem pushPosition_le (q : List Item) (f : Freq) : pushPosition q f ≤ q.length :=
  List.countP_le_length

@[simp] theorem push_length (q : List Item) (it : Item) : (push q it).length = q.length + 1 := by
  have := pushPosition_le q it.freq
  simp only [push, List.length_append, List.length_take, List.length_cons, List.length_drop]
  omega

@[simp] theorem push_nil (it : Item) : push [] it = [it] := by
  simp [push]

/-- Push adds one item and drops none. -/
theorem push_perm (q : List Item) (it : Item) : (push q it).Perm (it :: q) := by
  unfold push
  refine List.perm_middle.trans ?_
  rw [List.take_append_drop]

theorem mem_push {q : List Item} {it x : Item} : x ∈ push q it ↔ x = it ∨ x ∈ q := by
  rw [(push_perm q it).mem_iff, List.mem_cons]

/-- In a sorted queue the items before the position are those of frequency at most `f`. -/
theorem take_pushPosition {q : List Item} (h : QueueSorted q) (f : Freq) :
    (∀ x ∈ q.take (pushPosition q f), x.freq.toNat ≤ f.toNat) ∧
      ∀ x ∈ q.drop (pushPosition q f), f.toNat < x.freq.toNat := by
  induction q with
  | nil => simp
  | cons y q ih =>
    obtain ⟨hy, hq⟩ := List.pairwise_cons.1 h
    obtain ⟨ih1, ih2⟩ := ih hq
    by_cases hyf : y.freq.toNat ≤ f.toNat
    · have hp : pushPosition (y :: q) f = pushPosition q f + 1 := by
        simp [pushPosition, hyf]
      rw [hp, List.take_succ_cons, List.drop_succ_cons]
      refine ⟨?_, ih2⟩
      rintro x hx
      rcases List.mem_cons.1 hx with rfl | hx
      · exact hyf
      · exact ih1 x hx
    · have hp : pushPosition (y :: q) f = 0 := by
        unfold pushPosition
        rw [List.countP_eq_zero]
        intro x hx
        rcases List.mem_cons.1 hx with rfl | hx
        · simpa using hyf
        · have := hy x hx
          simp only [decide_eq_true_eq]
          omega
      rw [hp, List.take_zero, List.drop_zero]
      refine ⟨by simp, ?_⟩
      intro x hx
      rcases List.mem_cons.1 hx with rfl | hx
      · omega
      · have := hy x hx
        omega

/-- Push keeps any order that refines the frequency order: the new item must come after every item of
at most its frequency and before every item of more. -/
theorem push_pairwise {R : Item → Item → Prop} {q : List Item} {it : Item} (hs : QueueSorted q)
    (h : q.Pairwise R) (hle : ∀ x ∈ q, x.freq.toNat ≤ it.freq.toNat → R x it)
    (hgt : ∀ x ∈ q, it.freq.toNat < x.freq.toNat → R it x) : (push q it).Pairwise R := by
  obtain ⟨h1, h2⟩ := take_pushPosition hs it.freq
  have hq := h
  rw [← List.take_append_drop (pushPosition q it.freq) q, List.pairwise_append] at hq
  unfold push
  rw [List.pairwise_append]
  refine ⟨hq.1, List.pairwise_cons.2 ⟨fun x hx => hgt x (List.mem_of_mem_drop hx) (h2 x hx), hq.2.1⟩,
    ?_⟩
  intro x hx y hy
  rcases List.mem_cons.1 hy with rfl | hy
  · exact hle x (List.mem_of_mem_take hx) (h1 x hx)
  · exact hq.2.2 x hx y hy

/-- Push keeps the queue sorted (R81). -/
theorem push_sorted {q : List Item} (h : QueueSorted q) (it : Item) : QueueSorted (push q it) :=
  push_pairwise h h (fun _ _ hx => hx) fun _ _ hx => by omega

/-- Push is stable (R75, R81): among the items of one frequency the new one comes last. -/
theorem push_stable {q : List Item} (h : QueueSorted q) (it : Item) (g : Nat) :
    (push q it).filter (fun x => decide (x.freq.toNat = g)) =
      q.filter (fun x => decide (x.freq.toNat = g)) ++ (if it.freq.toNat = g then [it] else []) := by
  obtain ⟨-, h2⟩ := take_pushPosition h it.freq
  unfold push
  rw [List.filter_append, List.filter_cons]
  conv_rhs => rw [← List.take_append_drop (pushPosition q it.freq) q, List.filter_append]
  by_cases hg : it.freq.toNat = g
  · have : (q.drop (pushPosition q it.freq)).filter (fun x => decide (x.freq.toNat = g)) = [] := by
      rw [List.filter_eq_nil_iff]
      intro x hx
      have := h2 x hx
      simp only [decide_eq_true_eq]
      omega
    simp [hg, this]
  · simp [hg]

theorem pop_eq_some {q : List Item} {it : Item} {rest : List Item} :
    pop q = some (it, rest) ↔ q = it :: rest := by
  cases q with
  | nil => simp [pop]
  | cons x q => simp [pop, Prod.ext_iff]

theorem pop_eq_none {q : List Item} : pop q = none ↔ q = [] := by
  cases q <;> simp [pop]

@[simp] theorem isEmpty_iff {q : List Item} : isEmpty q = true ↔ q = [] := by
  simp [isEmpty, List.length_eq_zero_iff]

end Sys2Proof.Machine
end

