-- ==== Sys2Proof/Laws/Tree.lean ====
section
/-!
SUPPORT. The laws of the tree builder (42_tree_builder.md R85 to R93): what the leaves leave, the
invariant of the merge loop, that the loop ends, and that its end is a tree.
-/

namespace Sys2Proof.Machine

/-! The loop ends, from any state (R87). -/

theorem mergeLoop_ends (c : Config) (fuel : Nat) (W : Work) (h1 : 1 ≤ W.queue.length)
    (h2 : W.queue.length ≤ fuel + 1) :
    ∃ root W', mergeLoop c fuel W = some (root, W') ∧ W'.queue = [] ∧
      W'.next + 1 = W.next + W.queue.length := by
  induction fuel generalizing W with
  | zero =>
    obtain ⟨a, q1, hq⟩ := List.exists_cons_of_length_pos h1
    have hq1 : q1 = [] := by
      have : q1.length = 0 := by rw [hq, List.length_cons] at h2; omega
      exact List.length_eq_zero_iff.1 this
    subst hq1
    refine ⟨a.id, { W with queue := [] }, ?_, rfl, by simp [hq]⟩
    unfold mergeLoop
    simp [hq, pop, isEmpty]
  | succ fuel ih =>
    obtain ⟨a, q1, hq⟩ := List.exists_cons_of_length_pos h1
    rcases q1 with _ | ⟨b, q2⟩
    · refine ⟨a.id, { W with queue := [] }, ?_, rfl, by simp [hq]⟩
      unfold mergeLoop
      simp [hq, pop, isEmpty]
    · have hlen : (mergePair c { W with queue := q2 } a b).queue.length = q2.length + 1 := by
        simp [mergePair]
      obtain ⟨root, W', h, hq', hn⟩ := ih (mergePair c { W with queue := q2 } a b)
        (by rw [hlen]; omega)
        (by rw [hlen]; rw [hq] at h2; simp only [List.length_cons] at h2; omega)
      refine ⟨root, W', ?_, hq', ?_⟩
      · unfold mergeLoop
        simp only [hq, pop, isEmpty]
        simpa using h
      · rw [hn, hlen, hq]
        simp only [mergePair, List.length_cons]
        omega

theorem foldl_addLeaf_queue (s : State) (l : List Nat) (W : Work) :
    (l.foldl (addLeaf s) W).queue.length = W.queue.length + l.length ∧
      (l.foldl (addLeaf s) W).next = W.next := by
  induction l generalizing W with
  | nil => simp
  | cons i l ih =>
    obtain ⟨h1, h2⟩ := ih (addLeaf s W i)
    refine ⟨?_, by simpa [addLeaf] using h2⟩
    rw [List.foldl_cons, h1]
    simp only [addLeaf, push_length, List.length_cons]
    omega

/-- BUILD's loop ends in every state with an active leaf, after L - 1 merges (R87), and leaves the
queue empty (R92). -/
theorem build_loop_ends (s : State) (h : activeLeaves s ≠ []) :
    ∃ root W, mergeLoop s.cfg (activeLeaves s).length (addLeaves s) = some (root, W) ∧
      W.queue = [] ∧ W.next = s.cfg.n + (activeLeaves s).length - 1 := by
  obtain ⟨hq, hn⟩ := foldl_addLeaf_queue s (activeLeaves s) (workStart s.cfg)
  have hl : 1 ≤ (activeLeaves s).length := List.length_pos_iff.2 h
  have hq' : (addLeaves s).queue.length = (activeLeaves s).length := by
    unfold addLeaves
    rw [hq]
    simp [workStart]
  have hn' : (addLeaves s).next = s.cfg.n := hn
  obtain ⟨root, W, h1, h2, h3⟩ := mergeLoop_ends s.cfg (activeLeaves s).length (addLeaves s)
    (by omega) (by omega)
  exact ⟨root, W, h1, h2, by omega⟩

/-! The leaves (R85 step 1). -/

/-- The order of items in BUILD's queue (41_queue.md R82). -/
abbrev ItemBefore (x y : Item) : Prop :=
  x.freq.toNat < y.freq.toNat ∨ (x.freq.toNat = y.freq.toNat ∧ x.id.toNat < y.id.toNat)

theorem sorted_of_itemBefore {q : List Item} (h : q.Pairwise ItemBefore) : QueueSorted q :=
  h.imp fun hxy => by omega

/-- The queue item of a leaf. -/
def leafItem (s : State) (i : Nat) : Item := ⟨s.cfg.toIndex i, histGet s i⟩

/-- What step 1 has done after the leaves `done`. -/
structure LeafInv (s : State) (done : List Nat) (W : Work) : Prop where
  wf : Memory.wf (nodeReset s.cfg) s.cfg.arenaCap W.arena = true
  next : W.next = s.cfg.n
  nodes : ∀ k, nodeGet s.cfg W.arena k =
    if k ∈ done then { nodeReset s.cfg with freq := histGet s k } else nodeReset s.cfg
  queue : W.queue.Perm (done.map (leafItem s))
  sorted : W.queue.Pairwise ItemBefore

theorem leafInv_start (s : State) : LeafInv s [] (workStart s.cfg) :=
  ⟨rfl, rfl, fun _ => rfl, List.Perm.refl _, List.Pairwise.nil⟩

theorem leafInv_add {s : State} (hc : s.cfg.WellFormed) {done : List Nat} {W : Work}
    (h : LeafInv s done W) {i : Nat} (hi : i < s.cfg.n) (hd : ∀ k ∈ done, k < i) :
    LeafInv s (done ++ [i]) (addLeaf s W i) := by
  have hid : ∀ k, k ≤ i → (s.cfg.toIndex k).toNat = k := fun k hk =>
    s.cfg.toIndex_toNat hc (s.cfg.index_lt hc (by omega))
  have hnot : i ∉ done := fun hmem => absurd (hd i hmem) (by omega)
  refine ⟨nodeSet_wf h.wf (by unfold Config.arenaCap; omega), h.next, fun k => ?_, ?_, ?_⟩
  · simp only [addLeaf, nodeGet_nodeSet h.wf, h.nodes i, if_neg hnot, h.nodes k, List.mem_append,
      List.mem_singleton]
    by_cases hk : k = i
    · simp [hk]
    · simp [hk]
  · rw [List.map_append]
    refine (push_perm _ _).trans ?_
    refine (List.Perm.cons _ h.queue).trans ?_
    exact (List.perm_append_comm (l₁ := [leafItem s i])).trans (List.Perm.refl _)
  · refine push_pairwise (sorted_of_itemBefore h.sorted) h.sorted ?_ fun x _ hx => .inl hx
    intro x hx hle
    obtain ⟨k, hk, rfl⟩ := List.mem_map.1 (h.queue.mem_iff.1 hx)
    have hki := hd k hk
    rcases Nat.lt_or_ge (leafItem s k).freq.toNat (histGet s i).toNat with hlt | hge
    · exact .inl hlt
    · refine .inr ⟨Nat.le_antisymm hle hge, ?_⟩
      show (s.cfg.toIndex k).toNat < (s.cfg.toIndex i).toNat
      rw [hid k (by omega), hid i (le_refl i)]
      exact hki

theorem leafInv_foldl {s : State} (hc : s.cfg.WellFormed) (l : List Nat) {done : List Nat}
    {W : Work} (h : LeafInv s done W) (hl : (done ++ l).Pairwise (· < ·))
    (hn : ∀ i ∈ l, i < s.cfg.n) : LeafInv s (done ++ l) (l.foldl (addLeaf s) W) := by
  induction l generalizing done W with
  | nil => simpa using h
  | cons i l ih =>
    have hd : ∀ k ∈ done, k < i := fun k hk =>
      (List.pairwise_append.1 hl).2.2 k hk i (List.mem_cons_self ..)
    have := ih (leafInv_add hc h (hn i (List.mem_cons_self ..)) hd) (by simpa using hl)
      fun k hk => hn k (List.mem_cons_of_mem _ hk)
    simpa using this

theorem activeLeaves_sorted (s : State) : (activeLeaves s).Pairwise (· < ·) :=
  List.pairwise_lt_range.filter _

theorem mem_activeLeaves {s : State} {i : Nat} :
    i ∈ activeLeaves s ↔ i < s.cfg.n ∧ histGet s i ≠ 0 := by
  simp [activeLeaves, List.mem_filter]

/-- What step 1 leaves. -/
theorem leafInv_addLeaves (s : State) (hc : s.cfg.WellFormed) :
    LeafInv s (activeLeaves s) (addLeaves s) := by
  have := leafInv_foldl hc (activeLeaves s) (leafInv_start s)
    (by simpa using activeLeaves_sorted s) fun i hi => (mem_activeLeaves.1 hi).1
  simpa [addLeaves] using this

/-! The merge loop (R85 steps 2 to 4). -/

/-- The greedy choice at an internal node `p` while `waiting` names the nodes still in the queue. -/
def GreedyAt (c : Config) (A : Store Node) (waiting : Nat → Prop) (p : Nat) : Prop :=
  Before c A (nodeLeft c A p) (nodeRight c A p) ∧
    ∀ i, i < p → Materialised c A i → waiting i ∨ p < nodeParent c A i →
      Before c A (nodeRight c A p) i

/-- A node waits in the queue. -/
def InQueue (W : Work) (i : Nat) : Prop := ∃ it ∈ W.queue, it.id.toNat = i

/-- The invariant of the merge loop, for `L` active leaves whose frequencies are `leafFreq`. -/
structure LoopInv (c : Config) (L : Nat) (leafFreq : Nat → Nat) (W : Work) : Prop where
  wf : Memory.wf (nodeReset c) c.arenaCap W.arena = true
  next_ge : c.n ≤ W.next
  count : W.next + W.queue.length = c.n + L
  le : L ≤ c.n
  pos : 1 ≤ W.queue.length
  leaf_count : ((List.range c.n).filter fun i => decide (Materialised c W.arena i)).length = L
  leaf_freq : ∀ i, i < c.n → nodeFreq c W.arena i = leafFreq i
  sum : (W.queue.map fun it => it.freq.toNat).sum = leafSum c W.arena
  sum_le : leafSum c W.arena ≤ c.freqMax
  item : ∀ it ∈ W.queue, it.id.toNat < W.next ∧ nodeFreq c W.arena it.id.toNat = it.freq.toNat ∧
    it.freq.toNat ≠ 0 ∧ (nodeGet c W.arena it.id.toNat).parent = c.none
  sorted : W.queue.Pairwise ItemBefore
  last : c.n < W.next → InQueue W (W.next - 1)
  leaf_links : ∀ i, i < c.n →
    (nodeGet c W.arena i).left = c.none ∧ (nodeGet c W.arena i).right = c.none
  absent : ∀ i, ¬ Materialised c W.arena i ∨ W.next ≤ i → nodeGet c W.arena i = nodeReset c
  internal : ∀ p, c.n ≤ p → p < W.next → Materialised c W.arena p ∧ IsInternal c W.arena p
  linked : ∀ i, Materialised c W.arena i → InQueue W i ∨ IsLinked c W.arena W.next i
  greedy : ∀ p, c.n ≤ p → p < W.next → GreedyAt c W.arena (InQueue W) p

/-- What one merge writes, at every node. -/
theorem nodeGet_mergePair {c : Config} {W : Work} {a b : Item} {bound : Nat}
    (hwf : Memory.wf (nodeReset c) bound W.arena = true) (ha : a.id.toNat < W.next)
    (hb : b.id.toNat < W.next) (hn : W.next < bound) (hab : a.id.toNat ≠ b.id.toNat) (k : Nat) :
    nodeGet c (mergePair c W a b).arena k =
      if k = W.next then
        ⟨c.none, a.id, b.id, c.toFreq (a.freq.toNat + b.freq.toNat)⟩
      else if k = a.id.toNat ∨ k = b.id.toNat then
        { nodeGet c W.arena k with parent := c.toIndex W.next }
      else nodeGet c W.arena k := by
  have h1 : Memory.wf (nodeReset c) bound (nodeSet c W.arena W.next
      ⟨c.none, a.id, b.id, c.toFreq (a.freq.toNat + b.freq.toNat)⟩) = true := nodeSet_wf hwf hn
  have h2 := setParent_wf (p := c.toIndex W.next) h1 (show a.id.toNat < bound by omega)
  simp only [mergePair]
  rw [nodeGet_setParent h2]
  by_cases hkb : k = b.id.toNat
  · subst hkb
    rw [if_pos rfl, if_neg (by omega), if_pos (Or.inr rfl), nodeGet_setParent h1,
      if_neg (Ne.symm hab), nodeGet_nodeSet hwf, if_neg (by omega)]
  · rw [if_neg hkb, nodeGet_setParent h1]
    by_cases hka : k = a.id.toNat
    · subst hka
      rw [if_pos rfl, if_neg (by omega), if_pos (Or.inl rfl), nodeGet_nodeSet hwf,
        if_neg (by omega)]
    · rw [if_neg hka, nodeGet_nodeSet hwf]
      by_cases hkn : k = W.next
      · rw [if_pos hkn, if_pos hkn]
      · rw [if_neg hkn, if_neg hkn, if_neg (by omega)]

theorem mergePair_wf {c : Config} {W : Work} {a b : Item} {bound : Nat}
    (hwf : Memory.wf (nodeReset c) bound W.arena = true) (ha : a.id.toNat < W.next)
    (hb : b.id.toNat < W.next) (hn : W.next < bound) :
    Memory.wf (nodeReset c) bound (mergePair c W a b).arena = true :=
  setParent_wf (setParent_wf (nodeSet_wf hwf hn) (by omega)) (by omega)

/-- The facts one merge starts from: the queue is `a`, `b`, then `q`. -/
structure MergeStart (c : Config) (L : Nat) (leafFreq : Nat → Nat) (W : Work) (a b : Item)
    (q : List Item) : Prop where
  cfg : c.WellFormed
  inv : LoopInv c L leafFreq W
  queue : W.queue = a :: b :: q

namespace MergeStart

variable {c : Config} {L : Nat} {leafFreq : Nat → Nat} {W : Work} {a b : Item} {q : List Item}

/-- The work after the merge. -/
abbrev after (c : Config) (W : Work) (a b : Item) (q : List Item) : Work :=
  mergePair c { W with queue := q } a b

theorem ha (h : MergeStart c L leafFreq W a b q) : a ∈ W.queue := by simp [h.queue]

theorem hb (h : MergeStart c L leafFreq W a b q) : b ∈ W.queue := by simp [h.queue]

theorem mem_rest (h : MergeStart c L leafFreq W a b q) {it : Item} (hit : it ∈ q) :
    it ∈ W.queue := by simp [h.queue, hit]

theorem next_lt (h : MergeStart c L leafFreq W a b q) : W.next < c.arenaCap := by
  have h1 := h.inv.count
  have h2 := h.inv.le
  rw [h.queue] at h1
  simp only [List.length_cons] at h1
  unfold Config.arenaCap
  omega

theorem next_lt_none (h : MergeStart c L leafFreq W a b q) : W.next < c.none.toNat :=
  c.lt_none h.cfg h.next_lt

theorem next_toNat (h : MergeStart c L leafFreq W a b q) : (c.toIndex W.next).toNat = W.next :=
  c.toIndex_toNat h.cfg (c.index_lt h.cfg h.next_lt)

theorem before_ab (h : MergeStart c L leafFreq W a b q) : ItemBefore a b := by
  have := h.inv.sorted
  rw [h.queue] at this
  exact (List.pairwise_cons.1 this).1 b (List.mem_cons_self ..)

theorem before_rest (h : MergeStart c L leafFreq W a b q) {it : Item} (hit : it ∈ q) :
    ItemBefore b it := by
  have := h.inv.sorted
  rw [h.queue] at this
  exact (List.pairwise_cons.1 (List.pairwise_cons.1 this).2).1 it hit

/-- Items of one id in the queue have one frequency, so they are not before one another. -/
theorem id_ne_of_before {x y : Item} (h : LoopInv c L leafFreq W) (hx : x ∈ W.queue)
    (hy : y ∈ W.queue) (hxy : ItemBefore x y) : x.id.toNat ≠ y.id.toNat := by
  intro heq
  have h1 := (h.item x hx).2.1
  have h2 := (h.item y hy).2.1
  rw [heq] at h1
  omega

theorem ab_ne (h : MergeStart c L leafFreq W a b q) : a.id.toNat ≠ b.id.toNat :=
  id_ne_of_before h.inv h.ha h.hb h.before_ab

theorem sum_ab (h : MergeStart c L leafFreq W a b q) :
    a.freq.toNat + b.freq.toNat + (q.map fun it => it.freq.toNat).sum = leafSum c W.arena := by
  have := h.inv.sum
  rw [h.queue] at this
  simp only [List.map_cons, List.sum_cons] at this
  omega

theorem freq_toNat (h : MergeStart c L leafFreq W a b q) :
    (c.toFreq (a.freq.toNat + b.freq.toNat)).toNat = a.freq.toNat + b.freq.toNat := by
  refine c.toFreq_toNat h.cfg ?_
  have := h.sum_ab
  have := h.inv.sum_le
  omega

theorem nodes (h : MergeStart c L leafFreq W a b q) (k : Nat) :
    nodeGet c (after c W a b q).arena k =
      if k = W.next then
        ⟨c.none, a.id, b.id, c.toFreq (a.freq.toNat + b.freq.toNat)⟩
      else if k = a.id.toNat ∨ k = b.id.toNat then
        { nodeGet c W.arena k with parent := c.toIndex W.next }
      else nodeGet c W.arena k :=
  nodeGet_mergePair (W := { W with queue := q }) h.inv.wf (h.inv.item a h.ha).1
    (h.inv.item b h.hb).1 h.next_lt h.ab_ne k

theorem freq_next (h : MergeStart c L leafFreq W a b q) :
    nodeFreq c (after c W a b q).arena W.next = a.freq.toNat + b.freq.toNat := by
  simp only [nodeFreq, h.nodes, if_true]
  exact h.freq_toNat

theorem freq_other (h : MergeStart c L leafFreq W a b q) {k : Nat} (hk : k ≠ W.next) :
    nodeFreq c (after c W a b q).arena k = nodeFreq c W.arena k := by
  simp only [nodeFreq, h.nodes, if_neg hk]
  split <;> rfl

theorem left_next (h : MergeStart c L leafFreq W a b q) :
    nodeLeft c (after c W a b q).arena W.next = a.id.toNat := by
  simp only [nodeLeft, h.nodes, if_true]

theorem right_next (h : MergeStart c L leafFreq W a b q) :
    nodeRight c (after c W a b q).arena W.next = b.id.toNat := by
  simp only [nodeRight, h.nodes, if_true]

theorem left_other (h : MergeStart c L leafFreq W a b q) {k : Nat} (hk : k ≠ W.next) :
    (nodeGet c (after c W a b q).arena k).left = (nodeGet c W.arena k).left := by
  simp only [h.nodes, if_neg hk]
  split <;> rfl

theorem right_other (h : MergeStart c L leafFreq W a b q) {k : Nat} (hk : k ≠ W.next) :
    (nodeGet c (after c W a b q).arena k).right = (nodeGet c W.arena k).right := by
  simp only [h.nodes, if_neg hk]
  split <;> rfl

theorem parent_child (h : MergeStart c L leafFreq W a b q) {k : Nat}
    (hk : k = a.id.toNat ∨ k = b.id.toNat) :
    nodeParent c (after c W a b q).arena k = W.next := by
  have h1 := (h.inv.item a h.ha).1
  have h2 := (h.inv.item b h.hb).1
  simp only [nodeParent, h.nodes, if_neg (show k ≠ W.next by omega), if_pos hk]
  exact h.next_toNat

theorem parent_other (h : MergeStart c L leafFreq W a b q) {k : Nat} (hk : k ≠ W.next)
    (ha : k ≠ a.id.toNat) (hb : k ≠ b.id.toNat) :
    (nodeGet c (after c W a b q).arena k).parent = (nodeGet c W.arena k).parent := by
  simp only [h.nodes, if_neg hk]
  rw [if_neg (by omega)]

/-- A node with a parent is not one of the two popped. -/
theorem ne_of_parent (h : MergeStart c L leafFreq W a b q) {k : Nat}
    (hk : nodeParent c W.arena k < c.arenaCap) : k ≠ a.id.toNat ∧ k ≠ b.id.toNat := by
  have hlt := c.lt_none h.cfg hk
  constructor
  · rintro rfl
    rw [nodeParent, (h.inv.item a h.ha).2.2.2] at hlt
    omega
  · rintro rfl
    rw [nodeParent, (h.inv.item b h.hb).2.2.2] at hlt
    omega

theorem inQueue_after {k : Nat} :
    InQueue (after c W a b q) k ↔ k = (c.toIndex W.next).toNat ∨ ∃ it ∈ q, it.id.toNat = k := by
  unfold InQueue
  simp only [mergePair, mem_push]
  constructor
  · rintro ⟨it, rfl | hit, hid⟩
    · exact .inl hid.symm
    · exact .inr ⟨it, hit, hid⟩
  · rintro (hk | ⟨it, hit, hid⟩)
    · exact ⟨_, .inl rfl, hk.symm⟩
    · exact ⟨it, .inr hit, hid⟩

theorem leafSum_after (h : MergeStart c L leafFreq W a b q) :
    leafSum c (after c W a b q).arena = leafSum c W.arena := by
  unfold leafSum
  congr 1
  refine List.map_congr_left fun i hi => h.freq_other ?_
  have := List.mem_range.1 hi
  have := h.inv.next_ge
  omega

theorem not_materialised_next (h : MergeStart c L leafFreq W a b q) :
    nodeFreq c W.arena W.next = 0 := by
  rw [nodeFreq, h.inv.absent W.next (.inr (le_refl _))]
  rfl

/-- A child of an old internal node stays its child. -/
theorem child_after (h : MergeStart c L leafFreq W a b q) {p i : Nat} (hp : p < W.next)
    (hi : IsChild c W.arena p i) : IsChild c (after c W a b q).arena p i := by
  have hlt := hi.below
  have hne := h.ne_of_parent (k := i) (by rw [hi.parent]; exact hp.trans h.next_lt)
  refine ⟨hlt, ?_, ?_⟩
  · rw [Materialised, h.freq_other (by omega)]
    exact hi.materialised
  · rw [nodeParent, h.parent_other (by omega) hne.1 hne.2]
    exact hi.parent

/-- One merge keeps the invariant of the loop. -/
theorem loopInv_after (h : MergeStart c L leafFreq W a b q) :
    LoopInv c L leafFreq (after c W a b q) := by
  have hA := h.inv.item a h.ha
  have hB := h.inv.item b h.hb
  have hnext : (after c W a b q).next = W.next + 1 := rfl
  have hlen : (after c W a b q).queue.length = q.length + 1 := by simp [mergePair]
  have hcnt := h.inv.count
  rw [h.queue] at hcnt
  simp only [List.length_cons] at hcnt
  have hge := h.inv.next_ge
  refine
    { wf := mergePair_wf (W := { W with queue := q }) h.inv.wf hA.1 hB.1 h.next_lt
      next_ge := by rw [hnext]; omega
      count := by rw [hnext, hlen]; omega
      le := h.inv.le
      pos := by rw [hlen]; omega
      leaf_count := ?leaf_count
      leaf_freq := ?leaf_freq
      sum := ?sum
      sum_le := by rw [h.leafSum_after]; exact h.inv.sum_le
      item := ?item
      sorted := ?sorted
      last := ?last
      leaf_links := ?leaf_links
      absent := ?absent
      internal := ?internal
      linked := ?linked
      greedy := ?greedy }
  case leaf_count =>
    rw [← h.inv.leaf_count]
    congr 1
    refine List.filter_congr fun i hi => ?_
    have := List.mem_range.1 hi
    simp only [Materialised, h.freq_other (show i ≠ W.next by omega)]
  case leaf_freq =>
    intro i hi
    rw [h.freq_other (by omega)]
    exact h.inv.leaf_freq i hi
  case sum =>
    rw [h.leafSum_after, ← h.sum_ab]
    have hp := (push_perm q ⟨c.toIndex W.next, c.toFreq (a.freq.toNat + b.freq.toNat)⟩).map
      fun it => it.freq.toNat
    show (List.map _ (push q _)).sum = _
    rw [hp.sum_eq]
    simp only [List.map_cons, List.sum_cons, h.freq_toNat]
  case item =>
    intro it hit
    rcases mem_push.1 hit with rfl | hit
    · refine ⟨?_, ?_, ?_, ?_⟩
      · rw [hnext]
        show (c.toIndex W.next).toNat < _
        rw [h.next_toNat]
        omega
      · show nodeFreq c _ (c.toIndex W.next).toNat = _
        rw [h.next_toNat, h.freq_next]
        exact h.freq_toNat.symm
      · show (c.toFreq _).toNat ≠ 0
        rw [h.freq_toNat]
        omega
      · show (nodeGet c _ (c.toIndex W.next).toNat).parent = _
        rw [h.next_toNat, h.nodes, if_pos rfl]
    · have hI := h.inv.item it (h.mem_rest hit)
      have hb' := h.before_rest hit
      have ha' : ItemBefore a it := by have := h.before_ab; omega
      have hna := id_ne_of_before h.inv h.ha (h.mem_rest hit) ha'
      have hnb := id_ne_of_before h.inv h.hb (h.mem_rest hit) hb'
      refine ⟨by rw [hnext]; omega, ?_, hI.2.2.1, ?_⟩
      · rw [h.freq_other (by omega)]
        exact hI.2.1
      · rw [h.parent_other (by omega) hna.symm hnb.symm]
        exact hI.2.2.2
  case sorted =>
    have hs := h.inv.sorted
    rw [h.queue] at hs
    have hq := (List.pairwise_cons.1 (List.pairwise_cons.1 hs).2).2
    refine push_pairwise (sorted_of_itemBefore hq) hq ?_ fun x _ hx => .inl hx
    intro x hx hle
    have hI := h.inv.item x (h.mem_rest hx)
    rcases Nat.lt_or_ge x.freq.toNat (c.toFreq (a.freq.toNat + b.freq.toNat)).toNat with hlt | hge'
    · exact .inl hlt
    · refine .inr ⟨Nat.le_antisymm hle hge', ?_⟩
      show x.id.toNat < (c.toIndex W.next).toNat
      rw [h.next_toNat]
      exact hI.1
  case last =>
    intro _
    rw [inQueue_after, hnext, h.next_toNat]
    exact .inl (by omega)
  case leaf_links =>
    intro i hi
    rw [h.left_other (by omega), h.right_other (by omega)]
    exact h.inv.leaf_links i hi
  case absent =>
    intro i hi
    rw [hnext] at hi
    have hin : i ≠ W.next := by
      rintro rfl
      rcases hi with hi | hi
      · exact hi (by rw [Materialised, h.freq_next]; omega)
      · omega
    have hold : ¬ Materialised c W.arena i ∨ W.next ≤ i := by
      rcases hi with hi | hi
      · exact .inl (by rwa [Materialised, h.freq_other hin] at hi)
      · exact .inr (by omega)
    rw [h.nodes, if_neg hin, if_neg, h.inv.absent i hold]
    rintro (rfl | rfl)
    · rcases hold with hold | hold
      · exact hold (by rw [Materialised, hA.2.1]; exact hA.2.2.1)
      · omega
    · rcases hold with hold | hold
      · exact hold (by rw [Materialised, hB.2.1]; exact hB.2.2.1)
      · omega
  case internal =>
    intro p hp hpn
    rw [hnext] at hpn
    by_cases hpe : p = W.next
    · subst hpe
      refine ⟨by rw [Materialised, h.freq_next]; omega, ?_, ?_, ?_, ?_⟩
      · rw [h.left_next]
        exact ⟨hA.1, by rw [Materialised, h.freq_other (by omega), hA.2.1]; exact hA.2.2.1,
          h.parent_child (.inl rfl)⟩
      · rw [h.right_next]
        exact ⟨hB.1, by rw [Materialised, h.freq_other (by omega), hB.2.1]; exact hB.2.2.1,
          h.parent_child (.inr rfl)⟩
      · rw [h.left_next, h.right_next]
        exact h.ab_ne
      · rw [h.left_next, h.right_next, h.freq_next, h.freq_other (by omega),
          h.freq_other (by omega), hA.2.1, hB.2.1]
    · obtain ⟨hm, hint⟩ := h.inv.internal p hp (by omega)
      have hl : nodeLeft c (after c W a b q).arena p = nodeLeft c W.arena p := by
        rw [nodeLeft, nodeLeft, h.left_other hpe]
      have hr : nodeRight c (after c W a b q).arena p = nodeRight c W.arena p := by
        rw [nodeRight, nodeRight, h.right_other hpe]
      have := hint.left.below
      have := hint.right.below
      refine ⟨by rw [Materialised, h.freq_other hpe]; exact hm, ?_, ?_, ?_, ?_⟩
      · rw [hl]; exact h.child_after (by omega) hint.left
      · rw [hr]; exact h.child_after (by omega) hint.right
      · rw [hl, hr]; exact hint.different
      · rw [hl, hr, h.freq_other hpe, h.freq_other (by omega), h.freq_other (by omega)]
        exact hint.freq
  case linked =>
    intro i hi
    by_cases hin : i = W.next
    · exact .inl (inQueue_after.2 (.inl (by rw [h.next_toNat]; exact hin)))
    · rw [Materialised, h.freq_other hin] at hi
      by_cases hab : i = a.id.toNat ∨ i = b.id.toNat
      · refine .inr ⟨?_, ?_, ?_, ?_⟩
        · rw [h.parent_child hab]; exact hge
        · rw [h.parent_child hab, hnext]; omega
        · rw [h.parent_child hab]; omega
        · rw [h.parent_child hab, h.left_next, h.right_next]; omega
      · rcases h.inv.linked i hi with ⟨it, hit, hid⟩ | hlink
        · rw [h.queue] at hit
          rcases List.mem_cons.1 hit with rfl | hit
          · exact absurd (.inl hid.symm) hab
          · rcases List.mem_cons.1 hit with rfl | hit
            · exact absurd (.inr hid.symm) hab
            · exact .inl (inQueue_after.2 (.inr ⟨it, hit, hid⟩))
        · have hpar : nodeParent c (after c W a b q).arena i = nodeParent c W.arena i := by
            rw [nodeParent, nodeParent, h.parent_other hin (by omega) (by omega)]
          have hlt := hlink.allocated
          refine .inr ⟨?_, ?_, ?_, ?_⟩
          · rw [hpar]; exact hlink.internal
          · rw [hpar, hnext]; omega
          · rw [hpar]; exact hlink.above
          · rw [hpar, nodeLeft, nodeRight, h.left_other (by omega), h.right_other (by omega)]
            exact hlink.child
  case greedy =>
    intro p hp hpn
    rw [hnext] at hpn
    by_cases hpe : p = W.next
    · subst hpe
      refine ⟨?_, fun i hi hm hw => ?_⟩
      · rw [h.left_next, h.right_next, Before, h.freq_other (by omega), h.freq_other (by omega),
          hA.2.1, hB.2.1]
        exact h.before_ab
      · rw [Materialised, h.freq_other (by omega)] at hm
        rw [h.right_next, Before, h.freq_other (by omega), h.freq_other (by omega), hB.2.1]
        rcases hw with hw | hw
        · rcases inQueue_after.1 hw with hw | ⟨it, hit, rfl⟩
          · rw [h.next_toNat] at hw
            omega
          · rw [(h.inv.item it (h.mem_rest hit)).2.1]
            exact h.before_rest hit
        · by_cases hab : i = a.id.toNat ∨ i = b.id.toNat
          · rw [h.parent_child hab] at hw
            omega
          · have hpar : nodeParent c (after c W a b q).arena i = nodeParent c W.arena i := by
              rw [nodeParent, nodeParent, h.parent_other (by omega) (by omega) (by omega)]
            rw [hpar] at hw
            rcases h.inv.linked i hm with ⟨it, hit, rfl⟩ | hlink
            · rw [h.queue] at hit
              rcases List.mem_cons.1 hit with rfl | hit
              · exact absurd (.inl rfl) hab
              · rcases List.mem_cons.1 hit with rfl | hit
                · exact absurd (.inr rfl) hab
                · rw [(h.inv.item it (h.mem_rest hit)).2.1]
                  exact h.before_rest hit
            · have := hlink.allocated
              omega
    · obtain ⟨hg1, hg2⟩ := h.inv.greedy p hp (by omega)
      obtain ⟨-, hint⟩ := h.inv.internal p hp (by omega)
      have hl : nodeLeft c (after c W a b q).arena p = nodeLeft c W.arena p := by
        rw [nodeLeft, nodeLeft, h.left_other hpe]
      have hr : nodeRight c (after c W a b q).arena p = nodeRight c W.arena p := by
        rw [nodeRight, nodeRight, h.right_other hpe]
      have := hint.left.below
      have := hint.right.below
      refine ⟨?_, fun i hi hm hw => ?_⟩
      · rw [hl, hr, Before, h.freq_other (by omega), h.freq_other (by omega)]
        exact hg1
      · rw [Materialised, h.freq_other (by omega)] at hm
        rw [hr, Before, h.freq_other (by omega), h.freq_other (by omega)]
        refine hg2 i hi hm ?_
        rcases hw with hw | hw
        · rcases inQueue_after.1 hw with hw | ⟨it, hit, hid⟩
          · rw [h.next_toNat] at hw
            omega
          · exact .inl ⟨it, h.mem_rest hit, hid⟩
        · by_cases hia : i = a.id.toNat
          · exact .inl ⟨a, h.ha, hia.symm⟩
          · by_cases hib : i = b.id.toNat
            · exact .inl ⟨b, h.hb, hib.symm⟩
            · have hpar : nodeParent c (after c W a b q).arena i = nodeParent c W.arena i := by
                rw [nodeParent, nodeParent, h.parent_other (by omega) hia hib]
              rw [hpar] at hw
              exact .inr hw

end MergeStart

/-- The loop, from its invariant: it ends with one item, the root, having kept the invariant. -/
theorem mergeLoop_spec {c : Config} (hc : c.WellFormed) {L : Nat} {leafFreq : Nat → Nat}
    (fuel : Nat) {W : Work} (h : LoopInv c L leafFreq W) (hf : W.queue.length ≤ fuel + 1) :
    ∃ it A next, mergeLoop c fuel W = some (it.id, { arena := A, queue := [], next := next }) ∧
      LoopInv c L leafFreq { arena := A, queue := [it], next := next } := by
  have one : ∀ (fuel : Nat) (W : Work) (a : Item), LoopInv c L leafFreq W → W.queue = [a] →
      ∃ it A next, mergeLoop c fuel W = some (it.id, { arena := A, queue := [], next := next }) ∧
        LoopInv c L leafFreq { arena := A, queue := [it], next := next } := by
    intro fuel W a h hq
    refine ⟨a, W.arena, W.next, ?_, ?_⟩
    · unfold mergeLoop
      simp [hq, pop, isEmpty]
    · rw [← hq]
      exact h
  induction fuel generalizing W with
  | zero =>
    obtain ⟨a, q1, hq⟩ := List.exists_cons_of_length_pos h.pos
    have hq1 : q1 = [] := by
      have : q1.length = 0 := by rw [hq, List.length_cons] at hf; omega
      exact List.length_eq_zero_iff.1 this
    exact one 0 W a h (by rw [hq, hq1])
  | succ fuel ih =>
    obtain ⟨a, q1, hq⟩ := List.exists_cons_of_length_pos h.pos
    rcases q1 with _ | ⟨b, q2⟩
    · exact one (fuel + 1) W a h hq
    · have hm : MergeStart c L leafFreq W a b q2 := ⟨hc, h, hq⟩
      obtain ⟨it, A, next, h1, h2⟩ := ih hm.loopInv_after (by
        rw [hq] at hf
        simp only [List.length_cons] at hf
        simp only [mergePair, push_length]
        omega)
      refine ⟨it, A, next, ?_, h2⟩
      unfold mergeLoop
      simp only [hq, pop, isEmpty]
      simpa using h1

end Sys2Proof.Machine
end

