-- ==== Sys2Proof/Laws/Build.lean ====
section
/-!
SUPPORT. BUILD as a whole (42_tree_builder.md R85): from step 1's leaves to the loop's invariant, from
the loop's end to a tree, and what BUILD answers.
-/

namespace Sys2Proof.Machine

/-- Entries that are 0 do not count in a sum. -/
theorem sum_filter_ne_zero (f : Nat → Nat) (l : List Nat) :
    ((l.filter fun i => decide (f i ≠ 0)).map f).sum = (l.map f).sum := by
  induction l with
  | nil => rfl
  | cons i l ih =>
    rw [List.filter_cons]
    split
    · rw [List.map_cons, List.sum_cons, ih, List.map_cons, List.sum_cons]
    · next h =>
      have : f i = 0 := by simpa using h
      rw [ih, List.map_cons, List.sum_cons, this, Nat.zero_add]

theorem activeLeaves_eq (s : State) :
    activeLeaves s = (List.range s.cfg.n).filter fun i => decide ((histGet s i).toNat ≠ 0) := by
  unfold activeLeaves
  refine List.filter_congr fun i _ => ?_
  rw [Bool.eq_iff_iff]
  simp [BitVec.toNat_eq]

/-- The frequencies that step 1 writes are the histogram's. -/
theorem leafInv_freq {s : State} {W : Work} (h : LeafInv s (activeLeaves s) W) {i : Nat}
    (hi : i < s.cfg.n) : nodeFreq s.cfg W.arena i = (histGet s i).toNat := by
  rw [nodeFreq, h.nodes]
  split
  · rfl
  · next hn =>
    have : histGet s i = 0 := by
      by_contra h0
      exact hn (mem_activeLeaves.2 ⟨hi, h0⟩)
    rw [this]
    rfl

theorem leafInv_absent {s : State} {W : Work} (h : LeafInv s (activeLeaves s) W) {i : Nat}
    (hi : i ∉ activeLeaves s) : nodeGet s.cfg W.arena i = nodeReset s.cfg := by
  rw [h.nodes, if_neg hi]

/-- Step 1 establishes the invariant of the loop. -/
theorem loopInv_of_leafInv {s : State} {W : Work} (hi : Inv s) (ha : activeLeaves s ≠ [])
    (h : LeafInv s (activeLeaves s) W) :
    LoopInv s.cfg (activeLeaves s).length (fun i => (histGet s i).toNat) W := by
  have hlen : W.queue.length = (activeLeaves s).length := by
    simpa using h.queue.length_eq
  have hmem : ∀ k, k ∈ activeLeaves s → k < s.cfg.n ∧ (s.cfg.toIndex k).toNat = k := fun k hk => by
    have := (mem_activeLeaves.1 hk).1
    exact ⟨this, s.cfg.toIndex_toNat hi.cfg (s.cfg.index_lt hi.cfg (by omega))⟩
  have hleaf : leafSum s.cfg W.arena = histSum s := by
    unfold leafSum histSum
    congr 1
    exact List.map_congr_left fun i hi => leafInv_freq h (List.mem_range.1 hi)
  have hmat : ∀ i, Materialised s.cfg W.arena i → i ∈ activeLeaves s := fun i hm => by
    by_contra hn
    exact hm (by rw [nodeFreq, leafInv_absent h hn]; rfl)
  refine
    { wf := h.wf
      next_ge := by rw [h.next]
      count := by rw [h.next, hlen]
      le := ?le
      pos := by rw [hlen]; exact List.length_pos_iff.2 ha
      leaf_count := ?leaf_count
      leaf_freq := fun i hi => leafInv_freq h hi
      sum := ?sum
      sum_le := by rw [hleaf, ← hi.total_eq]; exact hi.total_le
      item := ?item
      sorted := h.sorted
      last := fun hlt => absurd h.next (by omega)
      leaf_links := ?leaf_links
      absent := ?absent
      internal := fun p hp hpn => absurd h.next (by omega)
      linked := ?linked
      greedy := fun p hp hpn => absurd h.next (by omega) }
  case le =>
    have := List.length_filter_le (fun i => decide (histGet s i ≠ 0)) (List.range s.cfg.n)
    simpa [activeLeaves] using this
  case leaf_count =>
    rw [activeLeaves_eq]
    congr 1
    refine List.filter_congr fun i hi => ?_
    simp only [Materialised, leafInv_freq h (List.mem_range.1 hi)]
  case sum =>
    rw [(h.queue.map _).sum_eq, List.map_map, hleaf, histSum,
      ← sum_filter_ne_zero fun i => (histGet s i).toNat, ← activeLeaves_eq]
    rfl
  case item =>
    intro it hit
    obtain ⟨k, hk, rfl⟩ := List.mem_map.1 (h.queue.mem_iff.1 hit)
    obtain ⟨hkn, hid⟩ := hmem k hk
    have hne := (mem_activeLeaves.1 hk).2
    refine ⟨?_, ?_, ?_, ?_⟩
    · show (s.cfg.toIndex k).toNat < _
      rw [hid, h.next]
      exact hkn
    · show nodeFreq _ _ (s.cfg.toIndex k).toNat = _
      rw [hid]
      exact leafInv_freq h hkn
    · show (histGet s k).toNat ≠ 0
      intro h0
      exact hne (BitVec.eq_of_toNat_eq h0)
    · show (nodeGet _ _ (s.cfg.toIndex k).toNat).parent = _
      rw [hid, h.nodes, if_pos hk]
      rfl
  case leaf_links =>
    intro i _
    rw [h.nodes]
    split <;> exact ⟨rfl, rfl⟩
  case absent =>
    intro i hi
    rw [h.nodes]
    split
    · next hk =>
      obtain ⟨hkn, hne⟩ := mem_activeLeaves.1 hk
      rcases hi with hi | hi
      · exfalso
        rw [Materialised, leafInv_freq h hkn] at hi
        exact hi fun h0 => hne (BitVec.eq_of_toNat_eq h0)
      · rw [h.next] at hi
        omega
    · rfl
  case linked =>
    intro i hm
    have hk := hmat i hm
    exact .inl ⟨leafItem s i, h.queue.mem_iff.2 (List.mem_map.2 ⟨i, hk, rfl⟩), (hmem i hk).2⟩

/-- The end of the loop is a tree (10_state.md R38 (d), (e)). -/
theorem isTree_of_loopInv {c : Config} {L : Nat} {leafFreq : Nat → Nat} {it : Item}
    {A : Store Node} {next : Nat}
    (h : LoopInv c L leafFreq { arena := A, queue := [it], next := next }) :
    IsTree c A it.id.toNat L next := by
  have hit := h.item it (by simp)
  have hcount : next + 1 = c.n + L := h.count
  have hin : ∀ i, InQueue { arena := A, queue := [it], next := next } i ↔ it.id.toNat = i := by
    intro i
    simp [InQueue]
  have hge := h.next_ge
  refine
    { one_le := ?_
      leaf_count := h.leaf_count
      next_eq := by omega
      root_many := fun h2 => (hin _).1 (h.last (by simp only; omega))
      root_one := fun h1 => by have := hit.1; simp only at this; omega
      root_materialised := by rw [Materialised, hit.2.1]; exact hit.2.2.1
      root_parent := hit.2.2.2
      leaf_links := h.leaf_links
      absent := h.absent
      internal := h.internal
      linked := fun i hm hr => ?_
      root_freq := by
        have := h.sum
        simp only [List.map_cons, List.map_nil, List.sum_cons, List.sum_nil] at this
        rw [hit.2.1]
        omega }
  · simp only at hge
    omega
  · rcases h.linked i hm with hq | hl
    · exact absurd ((hin i).1 hq).symm hr
    · exact hl

/-- The end of the loop is greedy at every internal node (R85). -/
theorem mergesTwoFirst_of_loopInv {c : Config} {L : Nat} {leafFreq : Nat → Nat} {it : Item}
    {A : Store Node} {next : Nat}
    (h : LoopInv c L leafFreq { arena := A, queue := [it], next := next }) {p : Nat}
    (hp : c.n ≤ p) (hpn : p < next) : MergesTwoFirst c A it.id.toNat p := by
  obtain ⟨h1, h2⟩ := h.greedy p hp hpn
  refine ⟨h1, fun i hi hm hw => h2 i hi hm ?_⟩
  rcases hw with hw | hw
  · exact .inl ⟨it, by simp, hw.symm⟩
  · exact .inr hw

/-- What BUILD leaves when it runs (R85): `t` is `s` with a new tree and an empty queue. -/
structure Built (s t : State) : Prop where
  frame : { t with arena := s.arena, queue := s.queue, root := s.root, nleaf := s.nleaf,
                   nnext := s.nnext, response := s.response } = s
  response : t.response = some { }
  queue : t.queue = []
  arena_wf : Memory.wf (nodeReset s.cfg) s.cfg.arenaCap t.arena = true
  nleaf : t.nleaf.toNat = (activeLeaves s).length
  tree : IsTree s.cfg t.arena t.root.toNat t.nleaf.toNat t.nnext.toNat
  leaf_freq : ∀ i, i < s.cfg.n → nodeFreq s.cfg t.arena i = (histGet s i).toNat
  greedy : ∀ p, s.cfg.n ≤ p → p < t.nnext.toNat → MergesTwoFirst s.cfg t.arena t.root.toNat p

/-- BUILD with an active leaf, in a state that meets the invariant (R85). -/
theorem execBuild_built {s : State} (hi : Inv s) (he : s.err = 0) (ha : activeLeaves s ≠ []) :
    ∃ t, execBuild s = .next t ∧ Built s t := by
  have hl := loopInv_of_leafInv hi ha (leafInv_addLeaves s hi.cfg)
  have hlen : (addLeaves s).queue.length = (activeLeaves s).length := by
    simpa using (leafInv_addLeaves s hi.cfg).queue.length_eq
  obtain ⟨it, A, next, hrun, hinv⟩ := mergeLoop_spec hi.cfg (activeLeaves s).length hl (by omega)
  have hcount : next + 1 = s.cfg.n + (activeLeaves s).length := hinv.count
  have hle := hinv.le
  have hpos := List.length_pos_iff.2 ha
  have hnleaf : (s.cfg.toIndex (activeLeaves s).length).toNat = (activeLeaves s).length :=
    s.cfg.toIndex_toNat hi.cfg (s.cfg.index_lt hi.cfg (by omega))
  have hnnext : (s.cfg.toIndex next).toNat = next :=
    s.cfg.toIndex_toNat hi.cfg (s.cfg.index_lt hi.cfg (by omega))
  refine ⟨{ s with arena := A, queue := [], root := it.id,
                   nleaf := s.cfg.toIndex (activeLeaves s).length,
                   nnext := s.cfg.toIndex next, response := some { } }, ?_, ?_⟩
  · unfold execBuild
    rw [guarded_run he rfl, if_neg (by omega), hrun]
    rfl
  · refine ⟨rfl, rfl, rfl, hinv.wf, hnleaf, ?_, hinv.leaf_freq, ?_⟩
    · show IsTree s.cfg A it.id.toNat _ _
      rw [hnleaf, hnnext]
      exact isTree_of_loopInv hinv
    · intro p hp hpn
      have hpn' : p < (s.cfg.toIndex next).toNat := hpn
      rw [hnnext] at hpn'
      exact mergesTwoFirst_of_loopInv hinv hp hpn'

end Sys2Proof.Machine
end

