-- ==== Sys2Proof/Laws/Code.lean ====
section
/-!
SUPPORT. The laws of the code deriver (43_code_deriver.md R100 to R105): the walk with fuel is the
relation `Climbs`, in a tree it ends at the root, and walking down along a code reaches its symbol.
-/

namespace Sys2Proof.Machine

/-- The walk without fuel ends only at a node with no parent. -/
theorem pathWalk_zero (s : State) (cur : Index) :
    pathWalk s 0 cur =
      if (arenaGet s cur.toNat).parent = s.cfg.none then .ok [] else .error .pathDiverges := by
  rw [pathWalk]

/-- One step of the walk. -/
theorem pathWalk_succ (s : State) (fuel : Nat) (cur : Index) :
    pathWalk s (fuel + 1) cur =
      if (arenaGet s cur.toNat).parent = s.cfg.none then .ok []
      else if nodeOk s.cfg (arenaGet s cur.toNat).parent then
        match pathWalk s fuel (arenaGet s cur.toNat).parent with
        | .error e => .error e
        | .ok rest => .ok (edgeBit s (arenaGet s cur.toNat).parent cur :: rest)
      else .error .arenaIndexOutOfRange := by
  rw [pathWalk] <;> rfl

/-- At a node with no parent the walk and the climb end at once. -/
theorem pathWalk_ok_root {s : State} (fuel : Nat) (cur : Index) (l : List Bool)
    (h : (arenaGet s cur.toNat).parent = s.cfg.none) :
    pathWalk s fuel cur = .ok l ↔ Climbs s cur l ∧ l.length ≤ fuel := by
  have hw : pathWalk s fuel cur = .ok [] := by
    cases fuel with
    | zero => rw [pathWalk_zero, if_pos h]
    | succ fuel => rw [pathWalk_succ, if_pos h]
  rw [hw]
  constructor
  · intro hl
    cases hl
    exact ⟨.root cur h, Nat.zero_le _⟩
  · rintro ⟨hc, -⟩
    cases hc with
    | root => rfl
    | up _ p rest hp hne => exact absurd (hp.symm.trans h) hne

/-- The walk with fuel finds exactly the climbs that are no longer than the fuel. -/
theorem pathWalk_ok {s : State} (fuel : Nat) (cur : Index) (l : List Bool) :
    pathWalk s fuel cur = .ok l ↔ Climbs s cur l ∧ l.length ≤ fuel := by
  induction fuel generalizing cur l with
  | zero =>
    by_cases h : (arenaGet s cur.toNat).parent = s.cfg.none
    · exact pathWalk_ok_root 0 cur l h
    · rw [pathWalk_zero, if_neg h]
      constructor
      · intro hl; cases hl
      · rintro ⟨hc, hl⟩
        cases hc with
        | root _ hr => exact absurd hr h
        | up => simp at hl
  | succ fuel ih =>
    by_cases h : (arenaGet s cur.toNat).parent = s.cfg.none
    · exact pathWalk_ok_root (fuel + 1) cur l h
    · rw [pathWalk_succ, if_neg h]
      by_cases hok : nodeOk s.cfg (arenaGet s cur.toNat).parent = true
      · have hlt : (arenaGet s cur.toNat).parent.toNat < s.cfg.arenaCap := by
          simpa [nodeOk] using hok
        rw [if_pos hok]
        constructor
        · intro hl
          cases hw : pathWalk s fuel (arenaGet s cur.toNat).parent with
          | error e => rw [hw] at hl; cases hl
          | ok rest =>
            rw [hw] at hl
            cases hl
            obtain ⟨h1, h2⟩ := (ih _ _).1 hw
            exact ⟨.up cur _ rest rfl h hlt h1, by simpa using h2⟩
        · rintro ⟨hc, hl⟩
          cases hc with
          | root _ hr => exact absurd hr h
          | up _ p rest hp hne hpl hrest =>
            subst hp
            rw [(ih _ _).2 ⟨hrest, by simpa using hl⟩]
            rfl
      · rw [if_neg hok]
        constructor
        · intro hl; cases hl
        · rintro ⟨hc, hl⟩
          cases hc with
          | root _ hr => exact absurd hr h
          | up _ p rest hp hne hpl hrest =>
            subst hp
            exact absurd (by simpa [nodeOk] using hpl) hok

/-- A node has at most one climb. -/
theorem Climbs.unique {s : State} {cur : Index} {l l' : List Bool} (h : Climbs s cur l)
    (h' : Climbs s cur l') : l = l' := by
  induction h generalizing l' with
  | root cur hr =>
    cases h' with
    | root => rfl
    | up _ p rest hp hne => exact absurd (hp.symm.trans hr) hne
  | up cur p rest hp hne hlt hrest ih =>
    cases h' with
    | root _ hr => exact absurd (hp.symm.trans hr) hne
    | up _ p' rest' hp' hne' hlt' hrest' =>
      have : p = p' := hp.symm.trans hp'
      subst this
      rw [ih hrest']

/-- The state holds a tree: what `Inv` says when TREE is 1. -/
abbrev HasTree (s : State) : Prop :=
  IsTree s.cfg s.arena s.root.toNat s.nleaf.toNat s.nnext.toNat

section Tree

variable {s : State}

theorem hasTree_next_le (hc : s.cfg.WellFormed) (h : HasTree s) : s.nnext.toNat < s.cfg.arenaCap := by
  have h1 := h.leaf_count
  have h2 := List.length_filter_le (fun i => decide (Materialised s.cfg s.arena i))
    (List.range s.cfg.n)
  have h3 := h.next_eq
  have h4 := h.one_le
  have h5 := (s.cfg.wellFormed_iff.1 hc).1
  rw [List.length_range] at h2
  unfold Config.arenaCap
  omega

/-- A node that has an internal parent is linked to it by its edge bit. -/
theorem edge_of_linked {cur p : Index} (hp : (arenaGet s cur.toNat).parent = p)
    (hl : IsLinked s.cfg s.arena s.nnext.toNat cur.toNat) :
    (if (if (arenaGet s p.toNat).left = cur then false else true) = true
      then (arenaGet s p.toNat).right.toNat else (arenaGet s p.toNat).left.toNat) = cur.toNat := by
  subst hp
  by_cases h : (arenaGet s (arenaGet s cur.toNat).parent.toNat).left = cur
  · simp [h]
  · rcases hl.child with hc | hc
    · exact absurd (BitVec.eq_of_toNat_eq hc) h
    · rw [if_neg h, if_pos rfl]
      exact hc

/-- A materialised node that is not the root has a parent other than NONE. -/
theorem parent_ne_none (hc : s.cfg.WellFormed) (h : HasTree s) {i : Nat}
    (hl : IsLinked s.cfg s.arena s.nnext.toNat i) : (arenaGet s i).parent ≠ s.cfg.none := by
  intro hn
  have h1 := hl.allocated
  have h2 := s.cfg.lt_none hc (hasTree_next_le hc h)
  rw [nodeParent, show nodeGet s.cfg s.arena i = arenaGet s i from rfl, hn] at h1
  omega

/-- In a tree every materialised node climbs to the root (R89); from an internal node `i` in at most
`NNEXT - 1 - i` steps. -/
theorem climbs_internal (hc : s.cfg.WellFormed) (h : HasTree s) (k : Nat) (cur : Index)
    (hm : Materialised s.cfg s.arena cur.toNat) (hk : s.nnext.toNat ≤ cur.toNat + 1 + k)
    (hcur : s.cfg.n ≤ cur.toNat) : ∃ l, Climbs s cur l ∧ l.length ≤ k := by
  induction k generalizing cur with
  | zero =>
    have hcr : cur.toNat = s.root.toNat := by
      by_contra hne
      have hl := h.linked cur.toNat hm hne
      have h1 := hl.allocated
      have h2 := hl.above
      omega
    exact ⟨[], .root cur (by rw [arenaGet, hcr]; exact h.root_parent), le_refl _⟩
  | succ k ih =>
    by_cases hcr : cur.toNat = s.root.toNat
    · exact ⟨[], .root cur (by rw [arenaGet, hcr]; exact h.root_parent), Nat.zero_le _⟩
    · have hl := h.linked cur.toNat hm hcr
      have h1 := hl.allocated
      have h2 := hl.above
      have h3 := hl.internal
      have hm' := (h.internal _ h3 h1).1
      obtain ⟨l, hl1, hl2⟩ := ih (arenaGet s cur.toNat).parent hm'
        (by
          show _ ≤ nodeParent s.cfg s.arena cur.toNat + 1 + k
          omega) h3
      exact ⟨_, .up cur _ l rfl (parent_ne_none hc h hl) (h1.trans (hasTree_next_le hc h)) hl1,
        by simpa using hl2⟩

/-- An active leaf climbs to the root in at most NLEAF - 1 steps (R89, R100), and in at least one unless
it is the root. -/
theorem climbs_leaf (hc : s.cfg.WellFormed) (h : HasTree s) (sym : Index)
    (hm : Materialised s.cfg s.arena sym.toNat) (hs : sym.toNat < s.cfg.n) :
    ∃ l, Climbs s sym l ∧ l.length ≤ s.nleaf.toNat - 1 ∧
      (l = [] ↔ (arenaGet s sym.toNat).parent = s.cfg.none) := by
  by_cases hcr : sym.toNat = s.root.toNat
  · have hp : (arenaGet s sym.toNat).parent = s.cfg.none := by
      rw [arenaGet, hcr]
      exact h.root_parent
    exact ⟨[], .root sym hp, Nat.zero_le _, by simp [hp]⟩
  · have hl := h.linked sym.toNat hm hcr
    have h1 := hl.allocated
    have h3 := hl.internal
    have hne := parent_ne_none hc h hl
    have hnx := h.next_eq
    obtain ⟨l, hl1, hl2⟩ := climbs_internal hc h (s.nleaf.toNat - 2) (arenaGet s sym.toNat).parent
      (h.internal _ h3 h1).1
      (by
        show _ ≤ nodeParent s.cfg s.arena sym.toNat + 1 + _
        omega) h3
    refine ⟨_, .up sym _ l rfl hne (h1.trans (hasTree_next_le hc h)) hl1, ?_, by simp [hne]⟩
    have h4 : s.cfg.n ≤ nodeParent s.cfg s.arena sym.toNat := h3
    simp only [List.length_cons]
    omega

/-- A node with no parent that is materialised is the root (R26). -/
theorem eq_root_of_parent (hc : s.cfg.WellFormed) (h : HasTree s) {i : Nat}
    (hm : Materialised s.cfg s.arena i) (hp : (arenaGet s i).parent = s.cfg.none) :
    i = s.root.toNat := by
  by_contra hne
  exact parent_ne_none hc h (h.linked i hm hne) hp

/-- Walking down from the root along a climb reversed reaches the node climbed from (R105). -/
theorem descend_climb (hc : s.cfg.WellFormed) (h : HasTree s) {cur : Index} {l : List Bool}
    (hcl : Climbs s cur l) (hm : Materialised s.cfg s.arena cur.toNat) (rest : List Bool) :
    descend s (l.reverse ++ rest) s.root.toNat = descend s rest cur.toNat := by
  induction hcl generalizing rest with
  | root cur hr => rw [eq_root_of_parent hc h hm hr]; rfl
  | up cur p l hp hne hlt hrest ih =>
    have hcr : cur.toNat ≠ s.root.toNat := by
      intro heq
      apply hne
      rw [← hp, arenaGet, heq]
      exact h.root_parent
    have hl := h.linked cur.toNat hm hcr
    have hpn : nodeParent s.cfg s.arena cur.toNat = p.toNat := by rw [← hp]; rfl
    have h3 := hl.internal
    rw [hpn] at h3
    have hm' : Materialised s.cfg s.arena p.toNat :=
      (h.internal _ h3 (by rw [← hpn]; exact hl.allocated)).1
    rw [List.reverse_cons, List.append_assoc, List.singleton_append, ih hm']
    rw [descend, if_neg (by omega), edge_of_linked hp hl]

/-- A leaf ends the walk down. -/
theorem descend_leaf {i : Nat} (hi : i < s.cfg.n) (rest : List Bool) :
    descend s rest i = some (i, rest) := by
  cases rest with
  | nil => rw [descend, if_pos hi]
  | cons b rest => rw [descend, if_pos hi]

/-- The code of an active symbol (R100, R104): what PATH computes in a tree. -/
theorem codeOf_ok (hc : s.cfg.WellFormed) (h : HasTree s) (sym : Index)
    (hm : Materialised s.cfg s.arena sym.toNat) (hs : sym.toNat < s.cfg.n) :
    ∃ l, Climbs s sym l ∧ l.length ≤ s.nleaf.toNat - 1 ∧
      codeOf s sym = .ok (if l = [] then [false] else l.reverse) := by
  obtain ⟨l, h1, h2, h3⟩ := climbs_leaf hc h sym hm hs
  refine ⟨l, h1, h2, ?_⟩
  unfold codeOf
  by_cases hp : (arenaGet s sym.toNat).parent = s.cfg.none
  · rw [if_pos hp, if_pos (h3.2 hp)]
  · have hle : s.nleaf.toNat ≤ s.cfg.n := by
      have h1 := h.leaf_count
      have h2 := List.length_filter_le (fun i => decide (Materialised s.cfg s.arena i))
        (List.range s.cfg.n)
      rw [List.length_range] at h2
      omega
    rw [if_neg hp, (pathWalk_ok s.cfg.n sym l).2 ⟨h1, by omega⟩, if_neg fun hl => hp (h3.1 hl)]

/-- Consuming a code from the front of the bits emits its symbol and leaves the rest (R105). -/
theorem walkSymbol_code (hc : s.cfg.WellFormed) (h : HasTree s) (sym : Index)
    (hm : Materialised s.cfg s.arena sym.toNat) (hs : sym.toNat < s.cfg.n) {code : List Bool}
    (hcode : codeOf s sym = .ok code) (rest : List Bool) :
    walkSymbol s (code ++ rest) = some (sym.toNat, rest) := by
  obtain ⟨l, h1, -, h3⟩ := codeOf_ok hc h sym hm hs
  rw [h3] at hcode
  cases hcode
  unfold walkSymbol
  by_cases hl : l = []
  · subst hl
    have hp : (arenaGet s sym.toNat).parent = s.cfg.none := by
      cases h1; assumption
    have hr := eq_root_of_parent hc h hm hp
    rw [if_pos (by omega)]
    simp [hr]
  · have hroot : s.cfg.n ≤ s.root.toNat := by
      by_contra hlt
      have h4 : s.nleaf.toNat = 1 := by
        have := h.one_le
        have := h.next_eq
        by_contra hne
        have := h.root_many (by omega)
        omega
      obtain ⟨l', hl1, hl2, -⟩ := climbs_leaf hc h sym hm hs
      rw [h1.unique hl1] at hl
      rw [h4] at hl2
      exact hl (List.length_eq_zero_iff.1 (by omega))
    rw [if_neg (by omega), if_neg hl, descend_climb hc h h1 hm, descend_leaf hs]

end Tree

end Sys2Proof.Machine
end

