-- ==== Sys2Proof/Laws/Decode.lean ====
section
/-!
SUPPORT. The fields of an assembled word, the word of its fields, and what each opcode number
decodes to (30_encoding.md R55, R60).
-/

namespace Sys2Proof

/-- The fields of a word as numbers. -/
theorem fieldOp_toNat (w : Word) : (fieldOp w).toNat = w.toNat / 2 ^ 56 := by
  have := w.isLt
  simp only [fieldOp, BitVec.extractLsb'_toNat, Nat.shiftRight_eq_div_pow]
  omega

theorem fieldZ_toNat (w : Word) : (fieldZ w).toNat = w.toNat / 2 ^ 48 % 2 ^ 8 := by
  simp only [fieldZ, BitVec.extractLsb'_toNat, Nat.shiftRight_eq_div_pow]

theorem fieldA_toNat (w : Word) : (fieldA w).toNat = w.toNat / 2 ^ 32 % 2 ^ 16 := by
  simp only [fieldA, BitVec.extractLsb'_toNat, Nat.shiftRight_eq_div_pow]

theorem fieldB_toNat (w : Word) : (fieldB w).toNat = w.toNat % 2 ^ 32 := by
  simp only [fieldB, BitVec.extractLsb'_toNat, Nat.shiftRight_eq_div_pow]
  omega

/-- An assembled word as a number. -/
theorem assemble_toNat (op : Byte) (a : Index) (b : Freq) :
    (assemble op a b).toNat = op.toNat * 2 ^ 56 + a.toNat * 2 ^ 32 + b.toNat := by
  have h : (assemble op a b).toNat =
      (op ++ (0 : Byte) ++ a ++ b : BitVec (8 + 8 + 16 + 32)).toNat := rfl
  have ha := a.isLt
  have hb := b.isLt
  rw [h, BitVec.toNat_append, BitVec.toNat_append, BitVec.toNat_append,
    ← Nat.shiftLeft_add_eq_or_of_lt hb, ← Nat.shiftLeft_add_eq_or_of_lt ha,
    ← Nat.shiftLeft_add_eq_or_of_lt (by decide : (0 : Byte).toNat < 2 ^ 8)]
  simp only [Nat.shiftLeft_eq]
  have h0 : (0 : Byte).toNat = 0 := rfl
  rw [h0]
  omega

@[simp] theorem fieldOp_assemble (op : Byte) (a : Index) (b : Freq) :
    fieldOp (assemble op a b) = op := by
  apply BitVec.eq_of_toNat_eq
  rw [fieldOp_toNat, assemble_toNat]
  have := a.isLt
  have := b.isLt
  omega

@[simp] theorem fieldZ_assemble (op : Byte) (a : Index) (b : Freq) :
    fieldZ (assemble op a b) = 0 := by
  apply BitVec.eq_of_toNat_eq
  rw [fieldZ_toNat, assemble_toNat]
  have := a.isLt
  have := b.isLt
  have h0 : (0 : Byte).toNat = 0 := rfl
  rw [h0]
  omega

@[simp] theorem fieldA_assemble (op : Byte) (a : Index) (b : Freq) :
    fieldA (assemble op a b) = a := by
  apply BitVec.eq_of_toNat_eq
  rw [fieldA_toNat, assemble_toNat]
  have := a.isLt
  have := b.isLt
  omega

@[simp] theorem fieldB_assemble (op : Byte) (a : Index) (b : Freq) :
    fieldB (assemble op a b) = b := by
  apply BitVec.eq_of_toNat_eq
  rw [fieldB_toNat, assemble_toNat]
  have := b.isLt
  omega

/-- A word whose reserved field is 0 is assembled from its fields. -/
theorem assemble_fields (w : Word) (hz : fieldZ w = 0) :
    assemble (fieldOp w) (fieldA w) (fieldB w) = w := by
  apply BitVec.eq_of_toNat_eq
  have hz' := fieldZ_toNat w
  have h0 : (0 : Byte).toNat = 0 := rfl
  rw [hz, h0] at hz'
  have := w.isLt
  rw [assemble_toNat, fieldOp_toNat, fieldA_toNat, fieldB_toNat]
  omega

/-- The map lists every opcode under its own number only. -/
theorem opcodeOf_number (o : Opcode) : opcodeOf o.number = some o := by
  cases o <;> decide

theorem opcodeOf_eq_some {op : Byte} {o : Opcode} : opcodeOf op = some o ↔ op = o.number := by
  constructor
  · intro h
    have := List.find?_some h
    exact (by simpa using this : o.number = op).symm
  · rintro rfl
    exact opcodeOf_number o

theorem decodeNone_ok {a : Index} {b : Freq} {i j : Instr} :
    decodeNone a b i = .ok j ↔ a = 0 ∧ b = 0 ∧ i = j := by
  unfold decodeNone
  split
  · next h => simp [h.1, h.2]
  · next h =>
    constructor
    · intro h'; cases h'
    · rintro ⟨ha, hb, -⟩; exact absurd ⟨ha, hb⟩ h

theorem decodeA_ok {c : Config} {b : Freq} {i j : Instr} :
    decodeA c b i = .ok j ↔ b = 0 ∧ i.wellFormed c = true ∧ i = j := by
  unfold decodeA
  split <;> [split; skip]
  · next hb h => simp [hb, h]
  · next hb h => simp [hb, h]
  · next hb =>
    constructor
    · intro h; cases h
    · exact fun h => absurd h.1 hb

theorem decodeAB_ok {c : Config} {i j : Instr} :
    decodeAB c i = .ok j ↔ i.wellFormed c = true ∧ i = j := by
  unfold decodeAB
  split
  · next h => simp [h]
  · next h => simp [h]

/-- Decoding succeeds exactly through an opcode of the map, with `z` = 0. -/
theorem decode_ok {c : Config} {w : Word} {i : Instr} :
    decode c w = .ok i ↔ fieldZ w = 0 ∧ ∃ o : Opcode, fieldOp w = o.number ∧
      decodeOperands c o (fieldA w) (fieldB w) = .ok i := by
  unfold decode
  split
  · next hz =>
    cases h : opcodeOf (fieldOp w) with
    | none =>
      simp only [hz, true_and]
      constructor
      · intro h'; cases h'
      · rintro ⟨o, ho, -⟩
        rw [ho, opcodeOf_number] at h
        cases h
    | some o =>
      simp only [hz, true_and]
      rw [opcodeOf_eq_some] at h
      constructor
      · exact fun h' => ⟨o, h, h'⟩
      · rintro ⟨o', ho', h'⟩
        have : o = o' := by
          have h1 := opcodeOf_number o
          rw [← h, ho', opcodeOf_number] at h1
          exact (Option.some.inj h1).symm
        rw [this]
        exact h'
  · next hz =>
    constructor
    · intro h; cases h
    · exact fun h => absurd h.1 hz

/-- An assembled word decodes through its own opcode. -/
theorem decode_assemble (c : Config) (o : Opcode) (a : Index) (b : Freq) :
    decode c (assemble o.number a b) = decodeOperands c o a b := by
  simp [decode, opcodeOf_number]

/-! Masked comparison of words, field by field (R60). -/

/-- Two words are equal when their four fields are. -/
theorem word_ext_fields {w v : Word} (ho : fieldOp w = fieldOp v) (hz : fieldZ w = fieldZ v)
    (ha : fieldA w = fieldA v) (hb : fieldB w = fieldB v) : w = v := by
  have h1 := fieldOp_toNat w
  have h2 := fieldZ_toNat w
  have h3 := fieldA_toNat w
  have h4 := fieldB_toNat w
  rw [ho, fieldOp_toNat] at h1
  rw [hz, fieldZ_toNat] at h2
  rw [ha, fieldA_toNat] at h3
  rw [hb, fieldB_toNat] at h4
  apply BitVec.eq_of_toNat_eq
  have := w.isLt
  have := v.isLt
  omega

theorem fieldOp_and (w m : Word) : fieldOp (w &&& m) = fieldOp w &&& fieldOp m :=
  BitVec.extractLsb'_and

theorem fieldZ_and (w m : Word) : fieldZ (w &&& m) = fieldZ w &&& fieldZ m :=
  BitVec.extractLsb'_and

theorem fieldA_and (w m : Word) : fieldA (w &&& m) = fieldA w &&& fieldA m :=
  BitVec.extractLsb'_and

theorem fieldB_and (w m : Word) : fieldB (w &&& m) = fieldB w &&& fieldB m :=
  BitVec.extractLsb'_and

/-- A word selects a row exactly when each of its fields, masked, is the row's. -/
theorem selects_iff (r : OpcodeRow) (w : Word) :
    r.selects w = true ↔
      fieldOp w &&& fieldOp r.mask = fieldOp r.pattern ∧
        fieldZ w &&& fieldZ r.mask = fieldZ r.pattern ∧
        fieldA w &&& fieldA r.mask = fieldA r.pattern ∧
        fieldB w &&& fieldB r.mask = fieldB r.pattern := by
  simp only [OpcodeRow.selects, decide_eq_true_eq, ← fieldOp_and, ← fieldZ_and, ← fieldA_and,
    ← fieldB_and]
  exact ⟨fun h => by rw [h]; exact ⟨rfl, rfl, rfl, rfl⟩,
    fun h => word_ext_fields h.1 h.2.1 h.2.2.1 h.2.2.2⟩

/-- A field whose bits from `k` up are 0 is below `2^k`: the masks of the operand ranges (R60, R62). -/
theorem and_high_eq_zero_iff (a : Index) (k : Nat) (hk : k ≤ 16) :
    a &&& BitVec.ofNat 16 (2 ^ 16 - 2 ^ k) = 0 ↔ a.toNat < 2 ^ k := by
  constructor
  · intro h
    by_contra hge
    obtain ⟨i, hi, hb⟩ := Nat.exists_ge_and_testBit_of_ge_two_pow (Nat.le_of_not_lt hge)
    have hi16 : i < 16 := by
      by_contra hge'
      rw [Nat.testBit_lt_two_pow (lt_of_lt_of_le a.isLt (pow_le_pow_right₀ (by decide) (by omega)))]
        at hb
      cases hb
    have h1 : (a &&& BitVec.ofNat 16 (2 ^ 16 - 2 ^ k)).getLsbD i = false := by rw [h]; simp
    rw [BitVec.getLsbD_and, BitVec.getLsbD_ofNat] at h1
    have h2 : (2 ^ 16 - 2 ^ k).testBit i = true := by
      interval_cases k <;> interval_cases i <;> rfl
    rw [h2] at h1
    simp only [hi16, decide_true, Bool.and_true] at h1
    rw [BitVec.getLsbD] at h1
    rw [h1] at hb
    cases hb
  · intro h
    apply BitVec.eq_of_getLsbD_eq
    intro i hi
    rw [BitVec.getLsbD_and, BitVec.getLsbD_ofNat]
    by_cases hik : i < k
    · have h2 : (2 ^ 16 - 2 ^ k).testBit i = false := by
        interval_cases k <;> interval_cases i <;> rfl
      rw [h2]
      simp
    · have : a.getLsbD i = false :=
        Nat.testBit_lt_two_pow (lt_of_lt_of_le h (pow_le_pow_right₀ (by decide) (by omega)))
      simp [this]

end Sys2Proof
end

