-- ==== Sys2Proof/Laws/Encoder.lean ====
section
/-!
SUPPORT. The laws of the pseudo-commands (45_encoder_pseudo.md): a sequence of commands unrolled, one
equation each, and that PATH and the walk down read only the configuration, the arena and ROOT.
-/

namespace Sys2Proof.Machine

@[simp] theorem andThen_next (s : State) (k : State → Outcome) : andThen (.next s) k = k s := rfl

@[simp] theorem andThen_fault (r : Fault) (k : State → Outcome) :
    andThen (.fault r) k = .fault r := rfl

@[simp] theorem andThen_refused (r : Refusal) (k : State → Outcome) :
    andThen (.refused r) k = .refused r := rfl

@[simp] theorem runAll_nil (s : State) : runAll [] s = .next s := rfl

theorem runAll_cons (i : Instr) (l : List Instr) (s : State) :
    runAll (i :: l) s = andThen (exec i s) (runAll l) := rfl

theorem emitAll_cons (b : Index) (l : List Index) (s : State) :
    emitAll (b :: l) s = andThen (emit b s) (emitAll l) := rfl

/-- A sequence that ends in a next state kept what each of its commands keeps. -/
theorem runAll_preserves {P : State → Prop}
    (hP : ∀ i s t, P s → exec i s = .next t → P t) {l : List Instr} {s t : State} (h : P s)
    (hx : runAll l s = .next t) : P t := by
  induction l generalizing s with
  | nil => cases hx; exact h
  | cons i l ih =>
    rw [runAll_cons] at hx
    cases hi : exec i s with
    | next u => rw [hi] at hx; exact ih (hP i s u h hi) hx
    | fault r => rw [hi] at hx; cases hx
    | refused r => rw [hi] at hx; cases hx

/-- PATH's walk reads the configuration and the arena only. -/
theorem pathWalk_congr {s t : State} (hc : t.cfg = s.cfg) (ha : t.arena = s.arena) (fuel : Nat)
    (cur : Index) : pathWalk t fuel cur = pathWalk s fuel cur := by
  have hg : ∀ k, arenaGet t k = arenaGet s k := fun k => by rw [arenaGet, arenaGet, hc, ha]
  induction fuel generalizing cur with
  | zero => rw [pathWalk_zero, pathWalk_zero, hg, hc]
  | succ fuel ih => simp only [pathWalk_succ, edgeBit, hg, hc, ih]

/-- So the code of a symbol is a function of the two (43_code_deriver.md R100). -/
theorem codeOf_congr {s t : State} (hc : t.cfg = s.cfg) (ha : t.arena = s.arena) (sym : Index) :
    codeOf t sym = codeOf s sym := by
  have hg : ∀ k, arenaGet t k = arenaGet s k := fun k => by rw [arenaGet, arenaGet, hc, ha]
  simp only [codeOf, hg, hc, pathWalk_congr hc ha]

/-- The walk down reads the configuration and the arena only. -/
theorem descend_congr {s t : State} (hc : t.cfg = s.cfg) (ha : t.arena = s.arena) (l : List Bool)
    (cur : Nat) : descend t l cur = descend s l cur := by
  have hg : ∀ k, arenaGet t k = arenaGet s k := fun k => by rw [arenaGet, arenaGet, hc, ha]
  induction l generalizing cur with
  | nil => simp only [descend, hc]
  | cons b l ih => simp only [descend, hg, hc, ih]

/-- The host's decoding reads the configuration, the arena and ROOT only (43_code_deriver.md R105). -/
theorem walkSymbols_congr {s t : State} (hc : t.cfg = s.cfg) (ha : t.arena = s.arena)
    (hr : t.root = s.root) (k : Nat) (l : List Bool) : walkSymbols t k l = walkSymbols s k l := by
  induction k generalizing l with
  | zero => rfl
  | succ k ih => simp only [walkSymbols, walkSymbol, hr, hc, descend_congr hc ha, ih]

end Sys2Proof.Machine
end

