-- ==== Sys2Proof/Laws/Operands.lean ====
section
/-!
SUPPORT. The operand checks as inequalities (30_encoding.md R62), and what is kept of a queue item's
operands (R56).
-/

namespace Sys2Proof.Machine

@[simp] theorem symbolOk_iff {c : Config} {a : Index} : symbolOk c a = true ↔ a.toNat < c.n :=
  decide_eq_true_iff

@[simp] theorem nodeOk_iff {c : Config} {a : Index} : nodeOk c a = true ↔ a.toNat < 2 * c.n :=
  decide_eq_true_iff

@[simp] theorem statusNumberOk_iff {a : Index} : statusNumberOk a = true ↔ a.toNat < 8 :=
  decide_eq_true_iff

@[simp] theorem bitOk_iff {a : Index} : bitOk a = true ↔ a.toNat < 2 := decide_eq_true_iff

/-- The id kept is the operand's low IDX_W bits. -/
theorem queueId_toNat {c : Config} (h : c.WellFormed) (a : Index) :
    (queueId c a).toNat = a.toNat % 2 ^ c.idxW :=
  c.toIndex_toNat_mod h a.toNat

/-- The frequency kept is the operand's low FREQ_W bits. -/
theorem queueFreq_toNat {c : Config} (h : c.WellFormed) (b : Freq) :
    (queueFreq c b).toNat = b.toNat % 2 ^ c.freqW :=
  c.toFreq_toNat_mod h b.toNat

theorem queueId_lt {c : Config} (h : c.WellFormed) (a : Index) :
    (queueId c a).toNat < 2 ^ c.idxW := by
  rw [queueId_toNat h]
  exact Nat.mod_lt _ (Nat.pos_of_ne_zero (by simp))

theorem queueFreq_lt {c : Config} (h : c.WellFormed) (b : Freq) :
    (queueFreq c b).toNat < 2 ^ c.freqW := by
  rw [queueFreq_toNat h]
  exact Nat.mod_lt _ (Nat.pos_of_ne_zero (by simp))

/-- An id that fits is kept as it is. -/
theorem queueId_of_lt {c : Config} (h : c.WellFormed) {a : Index} (ha : a.toNat < 2 ^ c.idxW) :
    queueId c a = a :=
  BitVec.eq_of_toNat_eq ((queueId_toNat h a).trans (Nat.mod_eq_of_lt ha))

/-- A frequency that fits is kept as it is. -/
theorem queueFreq_of_lt {c : Config} (h : c.WellFormed) {b : Freq} (hb : b.toNat < 2 ^ c.freqW) :
    queueFreq c b = b :=
  BitVec.eq_of_toNat_eq ((queueFreq_toNat h b).trans (Nat.mod_eq_of_lt hb))

end Sys2Proof.Machine
end

