-- ==== Sys2Proof/Laws/Exec.lean ====
section
/-!
SUPPORT. What a command and a step can do, said once: `exec_cases` gives the four ways a command
answers a next state, `step_cases` the three events a step takes.
-/

namespace Sys2Proof.Machine

/-- The condition under which a command raises its own fault, and the fault (60_exceptions.md R135). -/
def OwnFault (i : Instr) (s : State) (k : FaultKind) : Prop :=
  match i with
  | .acc _ => s.total.toNat = s.cfg.freqMax ∧ k = .freqOverflow
  | .qpush _ _ => s.queue.length = s.cfg.queueCap ∧ k = .queueFull
  | .qpop => s.queue = [] ∧ k = .emptyQueue
  | .build => activeLeaves s = [] ∧ k = .emptyAlphabet
  | .path sym => (arenaGet s sym.toNat).freq = 0 ∧ k = .symbolNotInTree
  | .abit _ => s.bits.length = s.cfg.bitbufCap ∧ k = .bitBufferFull
  | _ => False

/-- What a command leaves when it executes. -/
def Effect (i : Instr) (s t : State) : Prop :=
  match i with
  | .reset => t = respond { } (clearBlock s)
  | .rdsr n => t = respond { d := statusRegister s n } s
  | .acc sym => s.total.toNat ≠ s.cfg.freqMax ∧ t = respond { } (accumulate sym.toNat s)
  | .hrd sym => t = respond { d := histGet s sym.toNat } s
  | .qpush id freq => s.queue.length ≠ s.cfg.queueCap ∧
      t = respond { } { s with queue := push s.queue ⟨queueId s.cfg id, queueFreq s.cfg freq⟩ }
  | .qpop => ∃ it rest, s.queue = it :: rest ∧
      t = respond { id := it.id, d := it.freq } { s with queue := rest }
  | .qempty => t = respond { d := if isEmpty s.queue then 1 else 0 } s
  | .build => activeLeaves s ≠ [] ∧ ∃ root w,
      mergeLoop s.cfg (activeLeaves s).length (addLeaves s) = some (root, w) ∧
      t = respond { } { s with
        arena := w.arena
        queue := w.queue
        root := root
        nleaf := s.cfg.toIndex (activeLeaves s).length
        nnext := s.cfg.toIndex w.next }
  | .nrd idx => t = respond
      { id := (arenaGet s idx.toNat).parent
        l := (arenaGet s idx.toNat).left
        r := (arenaGet s idx.toNat).right
        d := (arenaGet s idx.toNat).freq } s
  | .path sym => (arenaGet s sym.toNat).freq ≠ 0 ∧ ∃ code, codeOf s sym = .ok code ∧
      t = respond { d := BitVec.ofNat 32 code.length, code := code } s
  | .abit bit => s.bits.length ≠ s.cfg.bitbufCap ∧
      t = respond { } { s with bits := s.bits ++ [bitOf bit] }
  | .flush => t = respond { d := BitVec.ofNat 32 (pack s.bits).length, bytes := pack s.bits }
      { s with bits := [] }
  | .bsize => t = respond { d := BitVec.ofNat 32 (byteCount s.bits.length) } s

/-- A well-formed command that runs the skeleton's body. -/
theorem exec_body {i : Instr} {s t : State} (he : s.err = 0) (hw : i.WellFormed s.cfg)
    (h : exec i s = .next t) : (∃ k, OwnFault i s k ∧ t = faulted k s) ∨ Effect i s t := by
  cases i with
  | reset => cases h; exact .inr rfl
  | rdsr n =>
    have h : execRdsr n s = .next t := h
    rw [execRdsr, if_pos (show statusNumberOk n = true from hw)] at h
    cases h
    exact .inr rfl
  | acc sym =>
    rw [exec, execAcc, guarded_run he (show symbolOk s.cfg sym = true from hw)] at h
    split at h
    · next hf => cases h; exact .inl ⟨_, ⟨hf, rfl⟩, rfl⟩
    · next hf => cases h; exact .inr ⟨hf, rfl⟩
  | hrd sym => rw [exec, execHrd, guarded_run he (show symbolOk s.cfg sym = true from hw)] at h; cases h; exact .inr rfl
  | qpush id freq =>
    rw [exec, execQpush, guarded_run he rfl] at h
    split at h
    · next hf => cases h; exact .inl ⟨_, ⟨hf, rfl⟩, rfl⟩
    · next hf => cases h; exact .inr ⟨hf, rfl⟩
  | qpop =>
    rw [exec, execQpop, guarded_run he rfl] at h
    split at h
    · next hf => cases h; exact .inl ⟨_, ⟨pop_eq_none.1 hf, rfl⟩, rfl⟩
    · next it rest hf => cases h; exact .inr ⟨it, rest, pop_eq_some.1 hf, rfl⟩
  | qempty => rw [exec, execQempty, guarded_run he rfl] at h; cases h; exact .inr rfl
  | build =>
    rw [exec, execBuild, guarded_run he rfl] at h
    split at h
    · next hf => cases h; exact .inl ⟨_, ⟨List.length_eq_zero_iff.1 hf, rfl⟩, rfl⟩
    · next hf =>
      split at h
      · cases h
      · next root w hm =>
        cases h
        exact .inr ⟨fun h0 => hf (List.length_eq_zero_iff.2 h0), root, w, hm, rfl⟩
  | nrd idx => rw [exec, execNrd, guarded_run he (show nodeOk s.cfg idx = true from hw)] at h; cases h; exact .inr rfl
  | path sym =>
    rw [exec, execPath, guarded_run he (show symbolOk s.cfg sym = true from hw)] at h
    split at h
    · next hf => cases h; exact .inl ⟨_, ⟨hf, rfl⟩, rfl⟩
    · next hf =>
      split at h
      · cases h
      · next code hcode => cases h; exact .inr ⟨hf, code, hcode, rfl⟩
  | abit bit =>
    rw [exec, execAbit, guarded_run he (show bitOk bit = true from hw)] at h
    split at h
    · next hf => cases h; exact .inl ⟨_, ⟨hf, rfl⟩, rfl⟩
    · next hf => cases h; exact .inr ⟨hf, rfl⟩
  | flush => rw [exec, execFlush, guarded_run he rfl] at h; cases h; exact .inr rfl
  | bsize => rw [exec, execBsize, guarded_run he rfl] at h; cases h; exact .inr rfl

/-- RESET and RDSR of a listed register execute in every state, the faulted one too (R140). -/
theorem exec_always {i : Instr} {s t : State} (hi : i = .reset ∨ ∃ n, i = .rdsr n ∧ n.toNat < 8)
    (h : exec i s = .next t) : Effect i s t := by
  rcases hi with rfl | ⟨n, rfl, hn⟩
  · cases h; rfl
  · have h : execRdsr n s = .next t := h
    rw [execRdsr, if_pos (statusNumberOk_iff.2 hn)] at h
    cases h
    rfl

/-- Every other command is refused in the faulted state (R140). -/
theorem exec_faulted {i : Instr} {s : State} (he : s.err ≠ 0) (h1 : i ≠ .reset)
    (h2 : ∀ n, i = .rdsr n → 8 ≤ n.toNat) : exec i s = .next (refusedState s) := by
  cases i with
  | reset => exact absurd rfl h1
  | rdsr n =>
    have hn : ¬ statusNumberOk n = true := by
      have := h2 n rfl
      rw [statusNumberOk_iff]
      omega
    show execRdsr n s = _
    rw [execRdsr, if_neg hn]
    rcases illegal_cases s with ⟨_, h⟩ | ⟨h, _⟩
    · exact h
    · exact absurd h he
  | _ => exact guarded_faulted he

/-- An ill-formed command with no fault latched raises IllegalCommand. -/
theorem exec_illegal {i : Instr} {s : State} (he : s.err = 0) (hw : ¬ i.WellFormed s.cfg) :
    exec i s = .next (faulted .illegalCommand s) := by
  cases i with
  | rdsr n =>
    show execRdsr n s = _
    rw [execRdsr, if_neg (show ¬ statusNumberOk n = true from hw)]
    rcases illegal_cases s with ⟨h, _⟩ | ⟨_, h⟩
    · exact absurd he h
    · exact h
  | acc => exact guarded_illegal he (Bool.eq_false_iff.2 hw)
  | hrd => exact guarded_illegal he (Bool.eq_false_iff.2 hw)
  | nrd => exact guarded_illegal he (Bool.eq_false_iff.2 hw)
  | path => exact guarded_illegal he (Bool.eq_false_iff.2 hw)
  | abit => exact guarded_illegal he (Bool.eq_false_iff.2 hw)
  | _ => exact absurd rfl hw

/-- The four ways a command answers a next state. -/
theorem exec_cases {i : Instr} {s t : State} (h : exec i s = .next t) :
    (s.err ≠ 0 ∧ i ≠ .reset ∧ t = refusedState s) ∨
      (s.err = 0 ∧ ¬ i.WellFormed s.cfg ∧ t = faulted .illegalCommand s) ∨
      (s.err = 0 ∧ i.WellFormed s.cfg ∧ ∃ k, OwnFault i s k ∧ t = faulted k s) ∨
      (i.WellFormed s.cfg ∧ (s.err = 0 ∨ i = .reset ∨ ∃ n, i = .rdsr n) ∧ Effect i s t) := by
  by_cases hi : i = .reset ∨ ∃ n, i = .rdsr n ∧ n.toNat < 8
  · refine .inr (.inr (.inr ⟨?_, ?_, exec_always hi h⟩))
    · rcases hi with rfl | ⟨n, rfl, hn⟩
      · rfl
      · exact statusNumberOk_iff.2 hn
    · rcases hi with rfl | ⟨n, rfl, -⟩
      · exact .inr (.inl rfl)
      · exact .inr (.inr ⟨n, rfl⟩)
  · have h1 : i ≠ .reset := fun h => hi (.inl h)
    have h2 : ∀ n, i = .rdsr n → 8 ≤ n.toNat := fun n hn => by
      by_contra hlt
      exact hi (.inr ⟨n, hn, by omega⟩)
    by_cases he : s.err = 0
    · by_cases hw : i.WellFormed s.cfg
      · rcases exec_body he hw h with hf | hf
        · exact .inr (.inr (.inl ⟨he, hw, hf⟩))
        · exact .inr (.inr (.inr ⟨hw, .inl he, hf⟩))
      · rw [exec_illegal he hw] at h
        cases h
        exact .inr (.inl ⟨he, hw, rfl⟩)
    · rw [exec_faulted he h1 h2] at h
      cases h
      exact .inl ⟨he, h1, rfl⟩

/-- No command is refused by the model. -/
theorem exec_ne_refused (i : Instr) (s : State) (r : Refusal) : exec i s ≠ .refused r := by
  have hg : ∀ l b, (∀ r, b ≠ .refused r) → guarded l s b ≠ .refused r := by
    intro l b hb
    rcases guarded_cases l s b with ⟨_, h⟩ | ⟨_, _, h⟩ | ⟨_, _, h⟩ <;> rw [h]
    · simp
    · simp
    · exact hb r
  cases i with
  | reset => intro h; cases h
  | rdsr n =>
    show execRdsr n s ≠ _
    unfold execRdsr
    split
    · simp
    · rcases illegal_cases s with ⟨_, h⟩ | ⟨_, h⟩ <;> rw [h] <;> simp
  | hrd => exact hg _ _ fun r => by simp
  | qempty => exact hg _ _ fun r => by simp
  | nrd => exact hg _ _ fun r => by simp
  | flush => exact hg _ _ fun r => by simp
  | bsize => exact hg _ _ fun r => by simp
  | acc => exact hg _ _ fun r => by split <;> simp [raise_eq]
  | qpush => exact hg _ _ fun r => by split <;> simp [raise_eq]
  | qpop => exact hg _ _ fun r => by split <;> simp [raise_eq]
  | abit => exact hg _ _ fun r => by split <;> simp [raise_eq]
  | build => exact hg _ _ fun r => by split <;> [simp [raise_eq]; (split <;> simp)]
  | path => exact hg _ _ fun r => by split <;> [simp [raise_eq]; (split <;> simp)]

/-- A word that decodes runs its command. -/
theorem runWord_ok {s : State} {w : Word} {i : Instr} (h : decode s.cfg w = .ok i) :
    runWord w s = exec i s := by rw [runWord, h]

/-- A word that does not decode is illegal. -/
theorem runWord_error {s : State} {w : Word} (h : ∀ i, decode s.cfg w ≠ .ok i) :
    runWord w s = illegal s := by
  rw [runWord]
  cases hd : decode s.cfg w with
  | ok i => exact absurd hd (h i)
  | error e => rfl

/-- A step takes the host's next event. -/
theorem step_event {s : State} {e : HostEvent} {rest : List HostEvent} (hc : s.cfg.WellFormed)
    (hp : s.pending = e :: rest) : step s = handle e { s with pending := rest } := by
  rw [step, if_pos hc, takeEvent, hp]

/-- The three events a step takes: none, the hardware reset, a word. -/
theorem step_cases {s t : State} (h : step s = .next t) :
    s.cfg.WellFormed ∧
      ((s.pending = [] ∧ t = s) ∨
        (∃ rest, s.pending = .hardwareReset :: rest ∧
          t = hardwareReset { s with pending := rest }) ∨
        ∃ w rest, s.pending = .command w :: rest ∧
          ((∃ i, decode s.cfg w = .ok i ∧ exec i { s with pending := rest } = .next t) ∨
            ((∀ i, decode s.cfg w ≠ .ok i) ∧ illegal { s with pending := rest } = .next t))) := by
  by_cases hc : s.cfg.WellFormed
  · refine ⟨hc, ?_⟩
    cases hp : s.pending with
    | nil =>
      rw [step, if_pos hc, takeEvent, hp] at h
      cases h
      exact .inl ⟨rfl, rfl⟩
    | cons e rest =>
      rw [step_event hc hp] at h
      cases e with
      | hardwareReset => cases h; exact .inr (.inl ⟨rest, rfl, rfl⟩)
      | command w =>
        refine .inr (.inr ⟨w, rest, rfl, ?_⟩)
        have h : runWord w { s with pending := rest } = .next t := h
        cases hd : decode s.cfg w with
        | ok i =>
          rw [runWord_ok (s := { s with pending := rest }) hd] at h
          exact .inl ⟨i, rfl, h⟩
        | error e =>
          have hd' : ∀ i, decode s.cfg w ≠ .ok i := fun i hi => by rw [hd] at hi; cases hi
          rw [runWord_error (s := { s with pending := rest }) hd'] at h
          exact .inr ⟨fun i hi => (nomatch hi), h⟩
  · rw [step, if_neg hc] at h
    cases h

end Sys2Proof.Machine
end

