-- ==== Sys2Proof/Laws/Invariant.lean ====
section
/-!
SUPPORT. The invariant kept by each operation over the state, one lemma an operation
(10_state.md R38).
-/

namespace Sys2Proof.Machine

theorem histSum_nil {s : State} (h : s.hist = []) : histSum s = 0 := by
  unfold histSum
  simp [histGet_eq, h]

/-- The invariant says nothing of the response and the pending events. -/
theorem Inv.interface {s : State} (h : Inv s) (r : Option Response) (p : List HostEvent) :
    Inv { s with response := r, pending := p } :=
  ⟨h.cfg, h.hist_wf, h.arena_wf, h.total_eq, h.total_le, h.queue_sorted, h.queue_le, h.queue_fits,
    h.bits_le, h.err_legal, h.tree.imp (fun h => ⟨h.root, h.arena, h.nleaf, h.nnext⟩) id⟩

theorem Inv.respond {s : State} (h : Inv s) (r : Response) : Inv (respond r s) :=
  h.interface (some r) s.pending

theorem Inv.pending {s : State} (h : Inv s) (p : List HostEvent) : Inv { s with pending := p } :=
  h.interface s.response p

/-- Fault entry with a code a command can latch. -/
theorem Inv.faulted {s : State} (h : Inv s) {k : FaultKind} (hk : k ≠ .capacityExceeded) :
    Inv (faulted k s) := by
  refine ⟨h.cfg, h.hist_wf, h.arena_wf, h.total_eq, h.total_le, h.queue_sorted, h.queue_le,
    h.queue_fits, h.bits_le, ?_, h.tree.imp (fun h => ⟨h.root, h.arena, h.nleaf, h.nnext⟩) id⟩
  show (FaultKind.code k).toNat ≤ 8 ∧ FaultKind.code k ≠ 4
  cases k <;> first | exact absurd rfl hk | decide

theorem Inv.refused {s : State} (h : Inv s) : Inv (refusedState s) := h.respond _

/-- The block of a well-formed configuration meets the invariant after reset. -/
theorem inv_cleared {s : State} (hc : s.cfg.WellFormed) : Inv (clearBlock s) := by
  refine ⟨hc, rfl, rfl, (histSum_nil rfl).symm, Nat.zero_le _, List.Pairwise.nil, Nat.zero_le _,
    fun it hit => absurd hit (List.not_mem_nil), Nat.zero_le _, ⟨Nat.zero_le _, (by decide : (0 : Code) ≠ 4)⟩,
    .inl ⟨rfl, fun _ => rfl, rfl, ?_⟩⟩
  exact s.cfg.toIndex_toNat hc (s.cfg.index_lt hc (by
    have := (s.cfg.wellFormed_iff.1 hc).1
    omega))

/-- A sum over a range after one entry went up by one. -/
theorem sum_range_add_one (f : Nat → Nat) {n i : Nat} (hi : i < n) :
    ((List.range n).map fun k => f k + if k = i then 1 else 0).sum =
      ((List.range n).map f).sum + 1 := by
  induction n with
  | zero => omega
  | succ n ih =>
    simp only [List.range_succ, List.map_append, List.sum_append, List.map_cons, List.map_nil,
      List.sum_cons, List.sum_nil, Nat.add_zero]
    by_cases hin : i = n
    · subst hin
      have : ((List.range i).map fun k => f k + if k = i then 1 else 0) = (List.range i).map f := by
        refine List.map_congr_left fun k hk => ?_
        rw [if_neg (by have := List.mem_range.1 hk; omega), Nat.add_zero]
      rw [this, if_pos rfl]
      omega
    · rw [ih (by omega), if_neg (by omega)]
      omega

/-- An entry is at most the sum. -/
theorem le_sum_range (f : Nat → Nat) {n i : Nat} (hi : i < n) : f i ≤ ((List.range n).map f).sum :=
  List.le_sum_of_mem (List.mem_map.2 ⟨i, List.mem_range.2 hi, rfl⟩)

/-- No count exceeds TOTAL (40_histogram.md R70). -/
theorem Inv.hist_le_total {s : State} (h : Inv s) (i : Nat) :
    (histGet s i).toNat ≤ s.total.toNat := by
  by_cases hi : i < s.cfg.n
  · rw [h.total_eq]
    exact le_sum_range (fun i => (histGet s i).toNat) hi
  · rw [histGet, Store.get_of_bound h.hist_wf (by omega)]
    exact Nat.zero_le _

/-- What ACC leaves in the histogram and TOTAL, exactly: nothing wraps (R70). -/
theorem Inv.accumulate_counts {s : State} (h : Inv s) (ht : s.total.toNat ≠ s.cfg.freqMax)
    (i : Nat) :
    (∀ k, (histGet (accumulate i s) k).toNat =
      (histGet s k).toNat + if k = i then 1 else 0) ∧
    (accumulate i s).total.toNat = s.total.toNat + 1 := by
  have hle := h.total_le
  constructor
  · intro k
    show (Store.get 0 (Store.set 0 s.hist i _) k).toNat = _
    rw [Memory.get_set h.hist_wf]
    by_cases hk : k = i
    · subst hk
      have := h.hist_le_total k
      rw [if_pos rfl, if_pos rfl, countUp, s.cfg.toFreq_toNat h.cfg (by omega)]
    · rw [if_neg hk, if_neg hk]
      rfl
  · show (countUp s.cfg s.total).toNat = _
    rw [countUp, s.cfg.toFreq_toNat h.cfg (by omega)]

theorem Inv.accumulate {s : State} (h : Inv s) (ht : s.total.toNat ≠ s.cfg.freqMax) {i : Nat}
    (hi : i < s.cfg.n) : Inv (accumulate i s) := by
  obtain ⟨h1, h2⟩ := h.accumulate_counts ht i
  have hle := h.total_le
  refine ⟨h.cfg, Memory.wf_set h.hist_wf hi, h.arena_wf, ?_, ?_, h.queue_sorted, h.queue_le,
    h.queue_fits, h.bits_le, h.err_legal,
    h.tree.imp (fun h => ⟨h.root, h.arena, h.nleaf, h.nnext⟩) id⟩
  · rw [h2, h.total_eq, histSum, histSum]
    show _ = ((List.range s.cfg.n).map fun k => _).sum
    simp only [h1]
    exact (sum_range_add_one (fun k => (histGet s k).toNat) hi).symm
  · rw [h2]
    show _ ≤ s.cfg.freqMax
    omega

theorem Inv.push {s : State} (h : Inv s) (hl : s.queue.length ≠ s.cfg.queueCap) {it : Item}
    (hit : it.id.toNat < 2 ^ s.cfg.idxW ∧ it.freq.toNat < 2 ^ s.cfg.freqW) :
    Inv { s with queue := push s.queue it } := by
  have hle := h.queue_le
  refine ⟨h.cfg, h.hist_wf, h.arena_wf, h.total_eq, h.total_le, push_sorted h.queue_sorted it, ?_, ?_,
    h.bits_le, h.err_legal, h.tree.imp (fun h => ⟨h.root, h.arena, h.nleaf, h.nnext⟩) id⟩
  · show (Machine.push s.queue it).length ≤ s.cfg.queueCap
    rw [push_length]
    omega
  · intro x hx
    rcases mem_push.1 hx with rfl | hx
    · exact hit
    · exact h.queue_fits x hx

theorem Inv.pop {s : State} (h : Inv s) {it : Item} {rest : List Item} (hq : s.queue = it :: rest) :
    Inv { s with queue := rest } := by
  have h1 := h.queue_sorted
  have h2 := h.queue_le
  have h3 := h.queue_fits
  rw [hq] at h1 h2 h3
  exact ⟨h.cfg, h.hist_wf, h.arena_wf, h.total_eq, h.total_le, (List.pairwise_cons.1 h1).2,
    (Nat.le_succ _).trans h2, fun x hx => h3 x (List.mem_cons_of_mem _ hx), h.bits_le, h.err_legal,
    h.tree.imp (fun h => ⟨h.root, h.arena, h.nleaf, h.nnext⟩) id⟩

theorem Inv.bits {s : State} (h : Inv s) {l : List Bool} (hl : l.length ≤ s.cfg.bitbufCap) :
    Inv { s with bits := l } :=
  ⟨h.cfg, h.hist_wf, h.arena_wf, h.total_eq, h.total_le, h.queue_sorted, h.queue_le, h.queue_fits, hl,
    h.err_legal, h.tree.imp (fun h => ⟨h.root, h.arena, h.nleaf, h.nnext⟩) id⟩

/-- The root of a tree is a node index, so it is not NONE. -/
theorem root_ne_none {c : Config} (hc : c.WellFormed) {A : Store Node} {root : Index}
    {nleaf next : Nat} (h : IsTree c A root.toNat nleaf next) : root ≠ c.none := by
  intro hr
  have h1 := h.leaf_count
  have h2 := List.length_filter_le (fun i => decide (Materialised c A i)) (List.range c.n)
  rw [List.length_range] at h2
  have h3 := h.next_eq
  have h4 := h.one_le
  have h5 : root.toNat < 2 * c.n := by
    by_cases hL : nleaf = 1
    · have := h.root_one hL
      omega
    · have := h.root_many (by omega)
      omega
  have := c.lt_none hc h5
  rw [hr] at this
  omega

/-- BUILD keeps the invariant. -/
theorem Inv.built {s t : State} (h : Inv s) (hb : Built s t) : Inv t := by
  have hf := hb.frame
  have hcfg : t.cfg = s.cfg := by
    have := congrArg State.cfg hf
    exact this
  have hhist : t.hist = s.hist := by
    have := congrArg State.hist hf
    exact this
  have htotal : t.total = s.total := by
    have := congrArg State.total hf
    exact this
  have hbits : t.bits = s.bits := by
    have := congrArg State.bits hf
    exact this
  have herr : t.err = s.err := by
    have := congrArg State.err hf
    exact this
  have htree := hb.tree
  have harena := hb.arena_wf
  rw [← hcfg] at htree harena
  have hc : t.cfg.WellFormed := hcfg ▸ h.cfg
  refine ⟨hc, ?_, harena, ?_, ?_, ?_, ?_, ?_, ?_, ?_, .inr ⟨root_ne_none hc htree, htree⟩⟩
  · rw [hcfg, hhist]; exact h.hist_wf
  · rw [htotal, h.total_eq]
    unfold histSum
    simp only [histGet_eq, hcfg, hhist]
  · rw [htotal, hcfg]; exact h.total_le
  · rw [hb.queue]; exact List.Pairwise.nil
  · rw [hb.queue]; exact Nat.zero_le _
  · rw [hb.queue]; exact fun it hit => absurd hit (List.not_mem_nil)
  · rw [hbits, hcfg]; exact h.bits_le
  · rw [herr]; exact h.err_legal

end Sys2Proof.Machine
end

