-- ==== Sys2Proof/Laws/Packer.lean ====
section
/-!
SUPPORT. The laws of the packing function (44_bit_packer.md R113, R114): its bytes bit by bit, and
that unpacking gives the bits back, padding after them.
-/

namespace Sys2Proof.Machine

/-- The number of a byte given by its eight bits, first bit on top. -/
theorem byte_bits : ∀ b0 b1 b2 b3 b4 b5 b6 b7 : Bool, ∀ j : Fin 8,
    (BitVec.ofNat 8 ([if b0 then 128 else 0, if b1 then 64 else 0, if b2 then 32 else 0,
      if b3 then 16 else 0, if b4 then 8 else 0, if b5 then 4 else 0, if b6 then 2 else 0,
      if b7 then 1 else 0].sum)).getLsbD (7 - j.val) =
      [b0, b1, b2, b3, b4, b5, b6, b7].getD j.val false := by
  decide

/-- Bit `7 - j` of byte `k` is bit `8k + j` of the buffer, or 0 past its end (R113). -/
theorem packByte_bit (bits : List Bool) (k j : Nat) (hj : j < 8) :
    (packByte bits k).getLsbD (7 - j) = bits.getD (8 * k + j) false := by
  have h := byte_bits (bits.getD (8 * k + 0) false) (bits.getD (8 * k + 1) false)
    (bits.getD (8 * k + 2) false) (bits.getD (8 * k + 3) false) (bits.getD (8 * k + 4) false)
    (bits.getD (8 * k + 5) false) (bits.getD (8 * k + 6) false) (bits.getD (8 * k + 7) false) ⟨j, hj⟩
  have h2 : packByte bits k = BitVec.ofNat 8 ([if bits.getD (8 * k + 0) false then 128 else 0,
      if bits.getD (8 * k + 1) false then 64 else 0, if bits.getD (8 * k + 2) false then 32 else 0,
      if bits.getD (8 * k + 3) false then 16 else 0, if bits.getD (8 * k + 4) false then 8 else 0,
      if bits.getD (8 * k + 5) false then 4 else 0, if bits.getD (8 * k + 6) false then 2 else 0,
      if bits.getD (8 * k + 7) false then 1 else 0].sum) := rfl
  rw [h2, h]
  interval_cases j <;> rfl

@[simp] theorem pack_length (bits : List Bool) : (pack bits).length = byteCount bits.length := by
  simp [pack]

theorem pack_getElem (bits : List Bool) (k : Nat) (hk : k < (pack bits).length) :
    (pack bits)[k] = packByte bits k := by
  simp [pack]

theorem unpack_length (bytes : List Byte) : (unpack bytes).length = 8 * bytes.length := by
  induction bytes with
  | nil => rfl
  | cons b bytes ih =>
    rw [unpack, List.flatMap_cons, List.length_append, List.length_cons]
    rw [unpack] at ih
    rw [ih]
    simp
    omega

/-- Bit i of the unpacked bytes comes from byte `i div 8`, position `7 - (i mod 8)` (20_memory.md R43). -/
theorem unpack_getD (bytes : List Byte) (i : Nat) :
    (unpack bytes).getD i false = (bytes.getD (i / 8) 0).getLsbD (7 - i % 8) := by
  induction bytes generalizing i with
  | nil => simp [unpack]
  | cons b bytes ih =>
    have hu : unpack (b :: bytes) =
        (List.range 8).map (fun j => b.getLsbD (7 - j)) ++ unpack bytes := rfl
    rw [hu]
    by_cases hi : i < 8
    · rw [List.getD_append _ _ _ _ (by simpa using hi)]
      rw [show i / 8 = 0 by omega, show i % 8 = i by omega]
      simp [List.getD_eq_getElem?_getD, List.getElem?_range hi]
    · rw [List.getD_append_right _ _ _ _ (by simpa using hi)]
      rw [show i / 8 = (i - 8) / 8 + 1 by omega, show i % 8 = (i - 8) % 8 by omega]
      simpa using ih (i - 8)

/-- Unpacking the packed bits gives them back, with zero bits up to a whole byte (R114). -/
theorem unpack_pack (bits : List Bool) :
    unpack (pack bits) =
      bits ++ List.replicate (8 * byteCount bits.length - bits.length) false := by
  have hle : bits.length ≤ 8 * byteCount bits.length := by unfold byteCount; omega
  apply List.ext_getElem
  · rw [unpack_length, pack_length, List.length_append, List.length_replicate]
    omega
  · intro i h1 h2
    have h3 : i < 8 * byteCount bits.length := by rwa [unpack_length, pack_length] at h1
    have hb : i / 8 < (pack bits).length := by rw [pack_length]; omega
    have e1 : (unpack (pack bits))[i] = (unpack (pack bits)).getD i false := by
      rw [List.getD_eq_getElem _ _ h1]
    have e2 : (pack bits).getD (i / 8) 0 = packByte bits (i / 8) := by
      rw [List.getD_eq_getElem _ _ hb, pack_getElem]
    rw [e1, unpack_getD, e2, packByte_bit _ _ _ (by omega), show 8 * (i / 8) + i % 8 = i by omega]
    by_cases hi : i < bits.length
    · rw [List.getElem_append_left hi, List.getD_eq_getElem _ _ hi]
    · rw [List.getElem_append_right (by omega), List.getElem_replicate,
        List.getD_eq_default _ _ (by omega)]

end Sys2Proof.Machine
end

