-- ==== Sys2Proof/Laws/PerInstr.lean ====
section
/-!
SUPPORT. A family of statements made for every instruction, one lemma a constructor: what stands in
the fields of an encoding (30_encoding.md R55, R59, R60).
-/

namespace Sys2Proof.Laws.EncodeFields

open Sys2Proof

/-- The number of a command's opcode (R60). -/
def number : Instr → Byte
  | .reset => 0x01
  | .rdsr _ => 0x02
  | .acc _ => 0x10
  | .hrd _ => 0x11
  | .qpush _ _ => 0x20
  | .qpop => 0x21
  | .qempty => 0x22
  | .build => 0x30
  | .nrd _ => 0x31
  | .path _ => 0x40
  | .abit _ => 0x50
  | .flush => 0x51
  | .bsize => 0x52

/-- Operand `a` of a command, 0 where it has none (R59). -/
def operandA : Instr → Index
  | .reset => 0
  | .rdsr n => n
  | .acc sym => sym
  | .hrd sym => sym
  | .qpush id _ => id
  | .qpop => 0
  | .qempty => 0
  | .build => 0
  | .nrd idx => idx
  | .path sym => sym
  | .abit bit => bit
  | .flush => 0
  | .bsize => 0

/-- Operand `b` of a command, 0 where it has none (R59). -/
def operandB : Instr → Freq
  | .reset => 0
  | .rdsr _ => 0
  | .acc _ => 0
  | .hrd _ => 0
  | .qpush _ freq => freq
  | .qpop => 0
  | .qempty => 0
  | .build => 0
  | .nrd _ => 0
  | .path _ => 0
  | .abit _ => 0
  | .flush => 0
  | .bsize => 0

/-- The four fields of the command's encoding. -/
def Statement (i : Instr) : Prop :=
  fieldOp (encode i) = number i ∧ fieldZ (encode i) = 0 ∧ fieldA (encode i) = operandA i ∧
    fieldB (encode i) = operandB i

theorem fields (op : Byte) (a : Index) (b : Freq) :
    fieldOp (assemble op a b) = op ∧ fieldZ (assemble op a b) = 0 ∧
      fieldA (assemble op a b) = a ∧ fieldB (assemble op a b) = b :=
  ⟨fieldOp_assemble op a b, fieldZ_assemble op a b, fieldA_assemble op a b,
    fieldB_assemble op a b⟩

theorem reset : Statement .reset := fields 0x01 0 0

theorem rdsr (n : Index) : Statement (.rdsr n) := fields 0x02 n 0

theorem acc (sym : Index) : Statement (.acc sym) := fields 0x10 sym 0

theorem hrd (sym : Index) : Statement (.hrd sym) := fields 0x11 sym 0

theorem qpush (id : Index) (freq : Freq) : Statement (.qpush id freq) := fields 0x20 id freq

theorem qpop : Statement .qpop := fields 0x21 0 0

theorem qempty : Statement .qempty := fields 0x22 0 0

theorem build : Statement .build := fields 0x30 0 0

theorem nrd (idx : Index) : Statement (.nrd idx) := fields 0x31 idx 0

theorem path (sym : Index) : Statement (.path sym) := fields 0x40 sym 0

theorem abit (bit : Index) : Statement (.abit bit) := fields 0x50 bit 0

theorem flush : Statement .flush := fields 0x51 0 0

theorem bsize : Statement .bsize := fields 0x52 0 0

end Sys2Proof.Laws.EncodeFields
end

