-- ==== Sys2Proof/Tests/Slice0.lean ====
section
/-!
SUPPORT. The model's own tests: ill-formed terms the checks refuse, words written out from the spec's
encoding, one step a command with the results of spec/95_test_vectors.md, and for every statement with
hypotheses a witness that meets them.
-/

namespace Sys2Proof.Tests

open Sys2Proof Sys2Proof.Machine

/-! ## Well-formedness (00_scope.md R12, 30_encoding.md R62) -/

/-- A small configuration: N = 4, four-bit indices and frequencies, NONE = 15. -/
def small : Config := { n := 4, idxW := 4, freqW := 4, bitbufCap := 16 }

theorem test_small_wellFormed : small.WellFormed := by decide

/-- The smallest configuration, each parameter at its least. -/
theorem test_least_wellFormed : Config.WellFormed ⟨1, 2, 0, 1⟩ := by decide

theorem test_no_symbols_refused : ¬ Config.WellFormed ⟨0, 16, 32, 1⟩ := by decide

theorem test_too_many_symbols_refused : ¬ Config.WellFormed ⟨5, 4, 4, 16⟩ := by decide

theorem test_wide_index_refused : ¬ Config.WellFormed ⟨4, 17, 32, 16⟩ := by decide

theorem test_wide_frequency_refused : ¬ Config.WellFormed ⟨4, 16, 33, 16⟩ := by decide

theorem test_no_buffer_refused : ¬ Config.WellFormed ⟨4, 16, 32, 0⟩ := by decide

theorem test_wide_buffer_refused : ¬ Config.WellFormed ⟨4, 16, 32, 4294967296⟩ := by decide

theorem test_rdsr_range : (Instr.rdsr 7).WellFormed Config.default ∧
    ¬ (Instr.rdsr 8).WellFormed Config.default := by decide

theorem test_acc_range : (Instr.acc 255).WellFormed Config.default ∧
    ¬ (Instr.acc 256).WellFormed Config.default := by decide

theorem test_hrd_range : (Instr.hrd 255).WellFormed Config.default ∧
    ¬ (Instr.hrd 256).WellFormed Config.default := by decide

theorem test_qpush_range : (Instr.qpush 0xFFFF 0xFFFFFFFF).WellFormed Config.default ∧
    (Instr.qpush 16 0).WellFormed small ∧ (Instr.qpush 0 16).WellFormed small := by decide

theorem test_nrd_range : (Instr.nrd 511).WellFormed Config.default ∧
    ¬ (Instr.nrd 512).WellFormed Config.default := by decide

theorem test_path_range : (Instr.path 255).WellFormed Config.default ∧
    ¬ (Instr.path 256).WellFormed Config.default := by decide

theorem test_abit_range : (Instr.abit 1).WellFormed Config.default ∧
    ¬ (Instr.abit 2).WellFormed Config.default := by decide

/-- An entry equal to the reset value, a repeated index and an index past the end are no store. -/
theorem test_store_form : Memory.wf (0 : Freq) 4 [(0, 1), (3, 2)] = true ∧
    Memory.wf (0 : Freq) 4 [(0, 0)] = false ∧ Memory.wf (0 : Freq) 4 [(1, 1), (1, 2)] = false ∧
    Memory.wf (0 : Freq) 4 [(4, 1)] = false := by decide

/-! ## Decoding (30_encoding.md R55, R60; the words are the spec's own) -/

theorem test_decode_reset : decode Config.default 0x0100000000000000 = .ok .reset := by rfl

theorem test_decode_rdsr : decode Config.default 0x0200000100000000 = .ok (.rdsr 1) := by rfl

theorem test_decode_acc : decode Config.default 0x1000004100000000 = .ok (.acc 0x41) := by rfl

theorem test_decode_hrd : decode Config.default 0x1100004100000000 = .ok (.hrd 0x41) := by rfl

theorem test_decode_qpush : decode Config.default 0x2000004100000005 = .ok (.qpush 65 5) := by rfl

theorem test_decode_qpop : decode Config.default 0x2100000000000000 = .ok .qpop := by rfl

theorem test_decode_qempty : decode Config.default 0x2200000000000000 = .ok .qempty := by rfl

theorem test_decode_build : decode Config.default 0x3000000000000000 = .ok .build := by rfl

theorem test_decode_nrd : decode Config.default 0x3100010200000000 = .ok (.nrd 258) := by rfl

theorem test_decode_path : decode Config.default 0x4000004100000000 = .ok (.path 0x41) := by rfl

theorem test_decode_abit : decode Config.default 0x5000000100000000 = .ok (.abit 1) := by rfl

theorem test_decode_flush : decode Config.default 0x5100000000000000 = .ok .flush := by rfl

theorem test_decode_bsize : decode Config.default 0x5200000000000000 = .ok .bsize := by rfl

/-- The all-zero and the all-one word, a set reserved bit, a set unused field (R61). -/
theorem test_decode_illegal :
    decode Config.default 0x0000000000000000 = .error .unknownOpcode ∧
    decode Config.default 0xFFFFFFFFFFFFFFFF = .error .reservedNotZero ∧
    decode Config.default 0xFF00000000000000 = .error .unknownOpcode ∧
    decode Config.default 0x1001004100000000 = .error .reservedNotZero ∧
    decode Config.default 0x1000004100000001 = .error .unusedNotZero ∧
    decode Config.default 0x2100000100000000 = .error .unusedNotZero :=
  ⟨rfl, rfl, rfl, rfl, rfl, rfl⟩

/-- Operands one past their ranges (R62). -/
theorem test_decode_out_of_range :
    decode Config.default 0x0200000800000000 = .error .operandOutOfRange ∧
    decode Config.default 0x1000010000000000 = .error .operandOutOfRange ∧
    decode Config.default 0x1100010000000000 = .error .operandOutOfRange ∧
    decode Config.default 0x3100020000000000 = .error .operandOutOfRange ∧
    decode Config.default 0x4000010000000000 = .error .operandOutOfRange ∧
    decode Config.default 0x5000000200000000 = .error .operandOutOfRange :=
  ⟨rfl, rfl, rfl, rfl, rfl, rfl⟩

/-- The rows of the opcode table are disjoint (R60): two rows differ in a bit that both masks test. -/
theorem test_table_rows_disjoint : opcodeTable.Pairwise fun r q =>
    r.pattern &&& (r.mask &&& q.mask) ≠ q.pattern &&& (r.mask &&& q.mask) := by decide

theorem test_decodeTableWord : decodeTableWord 64 0x2000000100000005 = some (.qpush 1 5) ∧
    decodeTableWord 64 0x2000000100000005 ≠ some (.qpush 5 1) := by decide

/-! ## One step a command (spec/95_test_vectors.md) -/

/-- The next state of an outcome, if it has one. -/
def nextState (o : Outcome) : Option State :=
  match o with
  | .next s => some s
  | .fault _ => none
  | .refused _ => none

theorem of_nextState {o : Outcome} {t : State} (h : nextState o = some t) : o = .next t := by
  cases o with
  | next s => rw [Option.some.inj (show some s = some t from h)]
  | fault r => exact absurd h (by simp [nextState])
  | refused r => exact absurd h (by simp [nextState])

/-- Section 2.2: from reset `ACC 0x41`, presented as the table's word. -/
theorem test_first_command : nextState (step (State.reset.withFetchWord 64 0x1000004100000000)) =
    some { State.reset with hist := [(0x41, 1)], total := 1, response := some { } } := by decide

/-- Section 2.2: TOTAL at its largest. -/
theorem test_acc_overflow :
    nextState (exec (.acc 0x41) { State.reset with total := 0xFFFFFFFF }) =
      some { State.reset with total := 0xFFFFFFFF, err := 6, response := some { err := 6 } } := by
  decide

/-- Section 2.2: an entry and TOTAL at one below the largest. -/
theorem test_acc_largest :
    nextState (exec (.acc 0x41) { State.reset with hist := [(0x41, 0xFFFFFFFE)], total := 0xFFFFFFFE }) =
      some { State.reset with
        hist := [(0x41, 0xFFFFFFFF)], total := 0xFFFFFFFF, response := some { } } := by
  decide

/-- Section 2.2: a count and an entry never counted. -/
theorem test_hrd :
    nextState (exec (.hrd 0x41) { State.reset with hist := [(0x41, 2)], total := 2 }) =
      some { State.reset with hist := [(0x41, 2)], total := 2, response := some { d := 2 } } := by
  decide

/-- Section 2.3 (a): the fourth push, after the equal frequency 3 and before 5; frequency 0 goes first. -/
theorem test_qpush_stable :
    (nextState (exec (.qpush 4 3) { State.reset with queue := [⟨2, 3⟩, ⟨1, 5⟩, ⟨3, 5⟩] })).map
      (fun t => t.queue) = some [⟨2, 3⟩, ⟨4, 3⟩, ⟨1, 5⟩, ⟨3, 5⟩] ∧
    (nextState (exec (.qpush 5 0) { State.reset with queue := [⟨2, 3⟩, ⟨1, 5⟩] })).map
      (fun t => t.queue) = some [⟨5, 0⟩, ⟨2, 3⟩, ⟨1, 5⟩] := by decide

/-- R56 at IDX_W = FREQ_W = 4: of id 0x1F and frequency 0x13 the low four bits, 15 and 3, are kept, and the
item goes where frequency 3 belongs. -/
theorem test_qpush_lowBits :
    (nextState (runWord 0x2000001F00000013
      { State.initial small with queue := [⟨2, 3⟩, ⟨1, 5⟩] })).map (fun t => t.queue) =
      some [⟨2, 3⟩, ⟨15, 3⟩, ⟨1, 5⟩] := by decide

/-- Section 2.3 (d): the earlier push first, not the lower id. -/
theorem test_qpop :
    nextState (exec .qpop { State.reset with queue := [⟨9, 4⟩, ⟨1, 4⟩] }) =
      some { State.reset with queue := [⟨1, 4⟩], response := some { id := 9, d := 4 } } := by decide

/-- Section 2.3 (a): the sixth pop. -/
theorem test_qpop_empty : nextState (exec .qpop State.reset) =
    some { State.reset with err := 1, response := some { err := 1 } } := by decide

/-- Program P4: from reset. -/
theorem test_qempty : nextState (exec .qempty State.reset) =
    some { State.reset with response := some { d := 1 } } := by decide

/-- The arena of section 1.1. -/
def scenarioArena : Store Node :=
  [(65, ⟨257, 0xFFFF, 0xFFFF, 5⟩), (66, ⟨256, 0xFFFF, 0xFFFF, 1⟩), (67, ⟨258, 0xFFFF, 0xFFFF, 6⟩),
   (68, ⟨256, 0xFFFF, 0xFFFF, 3⟩), (256, ⟨257, 66, 68, 4⟩), (257, ⟨258, 256, 65, 9⟩),
   (258, ⟨0xFFFF, 67, 257, 15⟩)]

/-- The state of section 1.1 after BUILD. -/
def scenario : State :=
  { State.reset with
    hist := [(65, 5), (66, 1), (67, 6), (68, 3)], total := 15, arena := scenarioArena, root := 258,
    nleaf := 4, nnext := 259, response := some { } }

set_option maxRecDepth 4000 in
/-- Section 1.1: BUILD with a used queue gives the whole arena and status. -/
theorem test_build_scenario :
    nextState (exec .build { State.reset with
      hist := [(65, 5), (66, 1), (67, 6), (68, 3)], total := 15, queue := [⟨9, 9⟩] }) =
      some scenario := by decide +kernel

/-- Section 2.4 (g): the empty histogram. -/
theorem test_build_empty : nextState (exec .build State.reset) =
    some { State.reset with err := 2, response := some { err := 2 } } := by decide +kernel

/-- 42_tree_builder.md R86's example: `NRD 258` and `NRD 66`. -/
theorem test_nrd :
    nextState (exec (.nrd 258) scenario) =
      some { scenario with response := some { id := 0xFFFF, l := 67, r := 257, d := 15 } } ∧
    nextState (exec (.nrd 66) scenario) =
      some { scenario with response := some { id := 256, l := 0xFFFF, r := 0xFFFF, d := 1 } } := by
  decide

/-- Section 2.5: `PATH 'B'`. -/
theorem test_path : nextState (exec (.path 66) scenario) =
    some { scenario with response := some { d := 3, code := [true, false, false] } } := by
  decide +kernel

/-- Section 2.5: `PATH 'E'`. -/
theorem test_path_absent : nextState (exec (.path 69) scenario) =
    some { scenario with err := 3, response := some { err := 3 } } := by decide

/-- 44_bit_packer.md R110's example, its last command. -/
theorem test_abit : nextState (exec (.abit 1) { State.reset with bits := [true, false] }) =
    some { State.reset with bits := [true, false, true], response := some { } } := by decide

/-- Section 2.6: ten bits, and R111's example. -/
theorem test_flush :
    pack [false, false, false, true, false, true, true, true, true, true] = [0x17, 0xC0] ∧
    nextState (exec .flush { State.reset with bits := [true, false, true] }) =
      some { State.reset with response := some { d := 1, bytes := [0xA0] } } := by decide

/-- Section 2.6: fifteen bits. -/
theorem test_flush_fifteen :
    pack (List.replicate 7 false ++ List.replicate 8 true) = [0x01, 0xFE] := by decide

/-- Section 1.3, all seven counts. -/
theorem test_bsize :
    ([0, 1, 7, 8, 9, 15, 16].map fun k =>
      (nextState (exec .bsize { State.reset with bits := List.replicate k true })).map
        fun t => t.response.map fun r => r.d.toNat) =
      [some (some 0), some (some 1), some (some 1), some (some 1), some (some 2), some (some 2),
        some (some 2)] := by decide

/-- 46_system.md R129's example: after QPOP on the empty queue, in the faulted state. -/
theorem test_rdsr_faulted :
    nextState (exec (.rdsr 0) { State.reset with err := 1 }) =
      some { State.reset with err := 1, response := some { d := 5 } } ∧
    nextState (exec (.rdsr 1) { State.reset with err := 1 }) =
      some { State.reset with err := 1, response := some { d := 1 } } := by decide

/-- Section 2.7: the status registers of the scenario. -/
theorem test_rdsr_scenario :
    ([0, 2, 3, 4, 6].map fun n => (statusRegister scenario n).toNat) = [6, 258, 4, 259, 15] := by
  decide

/-- 46_system.md R128: RESET in the faulted state. -/
theorem test_reset : nextState (exec .reset { scenario with err := 3, bits := [true] }) =
    some { State.reset with response := some { } } := by decide

/-- Section 2.8: an illegal word in the faulted state is refused with the latched code, not 8. -/
theorem test_illegal_refused : nextState (runWord 0 { scenario with err := 3 }) =
    some { scenario with err := 3, response := some { err := 3 } } := by decide

/-! ## Witnesses: states and operands that meet the hypotheses of the statements -/

/-- A state with no tree meets the invariant when its parts do. -/
theorem inv_of_parts {s : State} (ha : s.arena = []) (hr : s.root = s.cfg.none ∧ s.nleaf = 0)
    (hc : s.cfg.WellFormed ∧ s.nnext.toNat = s.cfg.n)
    (hh : Memory.wf 0 s.cfg.n s.hist = true ∧ s.total.toNat = histSum s ∧
      s.total.toNat ≤ s.cfg.freqMax)
    (hq : QueueSorted s.queue ∧ s.queue.length ≤ s.cfg.queueCap ∧
      ∀ it ∈ s.queue, it.id.toNat < 2 ^ s.cfg.idxW ∧ it.freq.toNat < 2 ^ s.cfg.freqW)
    (hb : s.bits.length ≤ s.cfg.bitbufCap ∧ s.err.toNat ≤ 8 ∧ s.err ≠ 4) : Machine.Inv s :=
  ⟨hc.1, hh.1, by rw [ha]; rfl, hh.2.1, hh.2.2, hq.1, hq.2.1, hq.2.2, hb.1, hb.2,
    .inl ⟨hr.1, fun i => by rw [arenaGet, ha]; rfl, hr.2, hc.2⟩⟩

/-- The small block at reset, with counts. -/
def counted (hist : Store Freq) (total : Freq) : State :=
  { State.initial small with hist := hist, total := total }

/-- Three active symbols. -/
def three : State := counted [(0, 1), (1, 1), (3, 2)] 4

/-- One active symbol. -/
def one : State := counted [(2, 3)] 3

/-- TOTAL at its largest. -/
def full : State := counted [(0, 15)] 15

/-- TOTAL at one below its largest. -/
def nearlyFull : State := counted [(0, 7), (3, 7)] 14

/-- A queue of eight items, which is full, and one of seven. -/
def queueFull : State := { State.initial small with queue := List.replicate 8 ⟨15, 15⟩ }

def queueNearlyFull : State := { State.initial small with queue := List.replicate 7 ⟨15, 15⟩ }

/-- A full bit buffer, and one with room for one bit. -/
def bitsFull : State := { State.initial small with bits := List.replicate 16 true }

def bitsNearlyFull : State := { State.initial small with bits := List.replicate 15 true }

/-- The small block in the faulted state. -/
def faultedSmall : State := { State.initial small with err := 8 }

/-- The tree of three symbols: (0, 1) merge into 4, (3, 4) into 5. -/
def treeThree : State :=
  { three with
    arena := [(0, ⟨4, 15, 15, 1⟩), (1, ⟨4, 15, 15, 1⟩), (3, ⟨5, 15, 15, 2⟩), (4, ⟨5, 0, 1, 2⟩),
      (5, ⟨15, 3, 4, 4⟩)]
    root := 5, nleaf := 3, nnext := 6, response := some { } }

/-- The tree of one symbol: its leaf is the root. -/
def treeOne : State :=
  { one with arena := [(2, ⟨15, 15, 15, 3⟩)], root := 2, nleaf := 1, nnext := 4, response := some { } }

theorem inv_three : Machine.Inv three :=
  inv_of_parts rfl (by decide) (by decide) (by decide) (by decide) (by decide)

theorem inv_one : Machine.Inv one :=
  inv_of_parts rfl (by decide) (by decide) (by decide) (by decide) (by decide)

theorem inv_full : Machine.Inv full :=
  inv_of_parts rfl (by decide) (by decide) (by decide) (by decide) (by decide)

theorem inv_nearlyFull : Machine.Inv nearlyFull :=
  inv_of_parts rfl (by decide) (by decide) (by decide) (by decide) (by decide)

theorem inv_queueFull : Machine.Inv queueFull :=
  inv_of_parts rfl (by decide) (by decide) (by decide) (by decide) (by decide)

theorem inv_queueNearlyFull : Machine.Inv queueNearlyFull :=
  inv_of_parts rfl (by decide) (by decide) (by decide) (by decide) (by decide)

theorem inv_faultedSmall : Machine.Inv faultedSmall :=
  inv_of_parts rfl (by decide) (by decide) (by decide) (by decide) (by decide)

theorem inv_small : Machine.Inv (State.initial small) :=
  inv_of_parts rfl (by decide) (by decide) (by decide) (by decide) (by decide)

/-- What BUILD makes of a state that meets the invariant meets it. -/
theorem inv_of_build {s t : State} (h : Machine.Inv s) (he : s.err = 0)
    (ha : activeLeaves s ≠ []) (hx : nextState (execBuild s) = some t) : Machine.Inv t := by
  obtain ⟨u, h1, h2⟩ := execBuild_built h he ha
  rw [h1] at hx
  cases hx
  exact h.built h2

theorem inv_treeThree : Machine.Inv treeThree :=
  inv_of_build inv_three rfl (by decide) (by decide)

theorem inv_treeOne : Machine.Inv treeOne := inv_of_build inv_one rfl (by decide) (by decide)

/-! Encoding. -/

/-- EncodedCommandDecodesBack: every operand at its largest. -/
theorem witness_encode : (Instr.qpush 0xFFFF 0xFFFFFFFF).WellFormed Config.default ∧
    (Instr.nrd 511).WellFormed Config.default ∧ (Instr.abit 1).WellFormed Config.default := by
  decide

/-- DecodedWordIsItsEncoding, and the first clause of OpcodeTableSelectsWhatDecodes. -/
theorem witness_decode : decode Config.default 0x310001FF00000000 = .ok (.nrd 511) := by rfl

/-- The second clause of OpcodeTableSelectsWhatDecodes, one past the range. -/
theorem witness_no_decode : ∀ i, decode Config.default 0x3100020000000000 ≠ .ok i := by
  intro i h
  cases h

/-- CommandsHaveTheTableEncodings: the largest operands of a small block. -/
theorem witness_queueOperandsFit : QueueOperandsFit small 0x2000000F0000000F :=
  fun _ => by decide

/-- QueueOperandsKeepTheirLowBits: the first id and the first frequency that do not fit, with the state
faulted, the queue full, and with room for one. -/
theorem witness_lowBits :
    (fieldOp 0x2000001000000010 = 0x20 ∧ fieldZ 0x2000001000000010 = 0 ∧
      (fieldA 0x2000001000000010).toNat = 2 ^ small.idxW ∧
      (fieldB 0x2000001000000010).toNat = 2 ^ small.freqW) ∧
    (Machine.Inv faultedSmall ∧ faultedSmall.err ≠ 0) ∧
    (Machine.Inv queueFull ∧ queueFull.err = 0 ∧ queueFull.queue.length = 2 * queueFull.cfg.n) ∧
    Machine.Inv queueNearlyFull ∧ queueNearlyFull.err = 0 ∧
    queueNearlyFull.queue.length ≠ 2 * queueNearlyFull.cfg.n :=
  ⟨by decide, ⟨inv_faultedSmall, by decide⟩, ⟨inv_queueFull, by decide, by decide⟩,
    inv_queueNearlyFull, by decide, by decide⟩

/-! One step. -/

/-- StepRunsTheDecodedCommand, with a later event still pending. -/
theorem witness_step : treeThree.cfg.WellFormed ∧
    ({ treeThree with pending := [.command 0x3000000000000000, .hardwareReset] } : State).pending =
      .command 0x3000000000000000 :: [.hardwareReset] ∧
    decode treeThree.cfg 0x3000000000000000 = .ok .build := ⟨by decide, rfl, rfl⟩

/-- StepFollowsTheDecodeSkeleton in the faulted state: two words that run, and two that are refused, one
well formed and one not. -/
theorem witness_skeleton_faulted :
    faultedSmall.err ≠ 0 ∧
    (WordWellFormed small 0x0100000000000000 ∧ fieldOp 0x0100000000000000 = 0x01) ∧
    (WordWellFormed small 0x0200000700000000 ∧ fieldOp 0x0200000700000000 = 0x02) ∧
    (WordWellFormed small 0x1000000300000000 ∧
      ¬ (fieldOp 0x1000000300000000 = 0x01 ∨ fieldOp 0x1000000300000000 = 0x02)) ∧
    ¬ WordWellFormed small 0x0200000800000000 := by
  unfold WordWellFormed
  exact ⟨by decide, by decide, by decide, by decide, by decide⟩

/-- StepFollowsTheDecodeSkeleton with no fault latched: an illegal word, and one that runs. -/
theorem witness_skeleton :
    three.err = 0 ∧ ¬ WordWellFormed small 0x1000000400000000 ∧
    WordWellFormed small 0x2000000F0000000F ∧ QueueOperandsFit small 0x2000000F0000000F := by
  unfold WordWellFormed
  exact ⟨by decide, by decide, by decide, witness_queueOperandsFit⟩

/-- IdleBlockKeepsItsState. -/
theorem witness_idle : treeThree.cfg.WellFormed ∧ treeThree.pending = [] := by decide

/-- HardwareResetClearsTheBlock, in the faulted state with a tree. -/
theorem witness_hardwareReset :
    ({ treeThree with err := 3, pending := [.hardwareReset] } : State).cfg.WellFormed ∧
    ({ treeThree with err := 3, pending := [.hardwareReset] } : State).pending =
      .hardwareReset :: [] := by decide

/-- The two sides of IllFormedConfigurationHasNoStep. -/
theorem witness_no_step :
    ¬ (2 * (State.initial ⟨5, 4, 4, 16⟩).cfg.n ≤ 2 ^ ((State.initial ⟨5, 4, 4, 16⟩).cfg.idxW - 1)) ∧
    three.cfg.wellFormed = true := by decide

/-- A step that counts a symbol. -/
theorem witness_counts :
    nextState (step { three with pending := [.command 0x1000000300000000] }) =
      some { counted [(0, 1), (1, 1), (3, 3)] 5 with response := some { } } := by decide

/-- EveryStepKeepsTheInvariant and LastNodeIsNeverWritten: BUILD over an old tree. -/
theorem witness_invariant :
    Machine.Inv { treeThree with pending := [.command 0x3000000000000000] } ∧
    step { treeThree with pending := [.command 0x3000000000000000] } = .next treeThree :=
  ⟨inv_treeThree.pending _, of_nextState (by decide)⟩

/-- NothingInTheBlockHangs: PATH in a tree and BUILD are pending. -/
theorem witness_hangs :
    Machine.Inv { treeThree with
      pending := [.command 0x4000000000000000, .command 0x3000000000000000] } :=
  inv_treeThree.pending _

/-- FirstFaultIsKept: a refused illegal word, and RESET. -/
theorem witness_firstFault :
    faultedSmall.err ≠ 0 ∧
    step { faultedSmall with pending := [.command 0] } =
      .next { faultedSmall with response := some { err := 8 } } ∧
    ¬ NextIsReset { faultedSmall with pending := [.command 0] } ∧
    step { faultedSmall with pending := [.command 0x0100000000000000] } =
      .next { State.initial small with response := some { } } ∧
    NextIsReset { faultedSmall with pending := [.command 0x0100000000000000] } ∧
    NextIsReset { faultedSmall with pending := [.hardwareReset] } := by
  refine ⟨by decide, of_nextState (by decide), ?_, of_nextState (by decide),
    .inr ⟨_, rfl, rfl⟩, .inl rfl⟩
  rintro (h | ⟨w, h, hw⟩)
  · cases h
  · cases h
    cases hw

/-- FaultingCommandChangesNothingElse: an illegal word, and each of the six faults. -/
theorem witness_faults :
    runWord 0 three = .next { three with err := 8, response := some { err := 8 } } ∧
    exec (.acc 3) full = .next { full with err := 6, response := some { err := 6 } } ∧
    exec (.qpush 15 0) queueFull = .next { queueFull with err := 5, response := some { err := 5 } } ∧
    exec .qpop three = .next { three with err := 1, response := some { err := 1 } } ∧
    exec .build bitsFull = .next { bitsFull with err := 2, response := some { err := 2 } } ∧
    exec (.path 2) treeThree = .next { treeThree with err := 3, response := some { err := 3 } } ∧
    exec (.abit 1) bitsFull = .next { bitsFull with err := 7, response := some { err := 7 } } :=
  ⟨of_nextState (by decide), of_nextState (by decide), of_nextState (by decide),
    of_nextState (by decide), of_nextState (by decide), of_nextState (by decide),
    of_nextState (by decide)⟩

/-- HistogramIsMonotone: a step of ACC (its next state is `witness_counts`), and one of RESET. -/
theorem witness_monotone :
    Machine.Inv { three with pending := [.command 0x1000000300000000] } ∧
    NextIs { three with pending := [.command 0x1000000300000000] } (.acc 3) ∧
    ¬ NextIsReset { three with pending := [.command 0x1000000300000000] } ∧
    Machine.Inv { three with pending := [.hardwareReset] } ∧
    step { three with pending := [.hardwareReset] } = .next (State.initial small) ∧
    NextIsReset { three with pending := [.hardwareReset] } := by
  refine ⟨inv_three.pending _, ⟨_, rfl, rfl⟩, ?_, inv_three.pending _, of_nextState (by decide),
    .inl rfl⟩
  rintro (h | ⟨w, h, hw⟩)
  · cases h
  · cases h
    cases hw

/-- CommandsWriteOnlyTheirStores, for a command that writes no store and one that writes the bits. -/
theorem witness_frames :
    exec .bsize treeThree = .next { treeThree with response := some { d := 0 } } ∧
    exec .flush bitsFull = .next { State.initial small with
      response := some { d := 2, bytes := [0xFF, 0xFF] } } :=
  ⟨of_nextState (by decide), of_nextState (by decide)⟩

/-- ReadingCommandsChangeNothing: a reading command, RDSR in the faulted state, QPOP and FLUSH. -/
theorem witness_reading :
    exec (.nrd 7) treeThree =
      .next { treeThree with response := some { id := 15, l := 15, r := 15 } } ∧
    exec (.rdsr 7) faultedSmall = .next { faultedSmall with response := some { } } ∧
    exec .qpop queueFull = .next { queueNearlyFull with response := some { id := 15, d := 15 } } ∧
    exec .flush three = .next { three with response := some { } } :=
  ⟨of_nextState (by decide), of_nextState (by decide), of_nextState (by decide),
    of_nextState (by decide)⟩

/-! The commands. -/

/-- The hypotheses on the state that most statements share. -/
theorem witness_running : treeThree.cfg.WellFormed ∧ treeThree.err = 0 ∧ one.cfg.WellFormed ∧
    one.err = 0 ∧ queueFull.err = 0 ∧ bitsFull.err = 0 ∧
    treeThree.queue.length ≤ treeThree.cfg.queueCap ∧
    bitsFull.bits.length ≤ bitsFull.cfg.bitbufCap := by decide

/-- Illegal words of the commands without operands, in each of the three fields (the hypotheses of
their second clauses), and the same of a RESET word in the faulted state. -/
theorem witness_illegal_none :
    fieldOp 0x0101000000000000 = 0x01 ∧ fieldZ 0x0101000000000000 ≠ 0 ∧ faultedSmall.err ≠ 0 ∧
    fieldOp 0x2100000100000000 = 0x21 ∧ fieldA 0x2100000100000000 ≠ 0 ∧
    fieldOp 0x2200000000000001 = 0x22 ∧ fieldB 0x2200000000000001 ≠ 0 ∧
    fieldOp 0x3080000000000000 = 0x30 ∧ fieldZ 0x3080000000000000 ≠ 0 ∧
    fieldOp 0x5100800000000000 = 0x51 ∧ fieldA 0x5100800000000000 ≠ 0 ∧
    fieldOp 0x5200000080000000 = 0x52 ∧ fieldB 0x5200000080000000 ≠ 0 := by decide

/-- The largest legal operand of a small block and the first illegal one, for each command with one. -/
theorem witness_operands :
    fieldOp 0x0200000700000000 = 0x02 ∧ (fieldA 0x0200000700000000).toNat < 8 ∧
      8 ≤ (fieldA 0x0200000800000000).toNat ∧
    fieldOp 0x1000000300000000 = 0x10 ∧ (fieldA 0x1000000300000000).toNat < small.n ∧
      small.n ≤ (fieldA 0x1000000400000000).toNat ∧
    fieldOp 0x1100000300000000 = 0x11 ∧ (fieldA 0x1100000300000000).toNat < small.n ∧
      small.n ≤ (fieldA 0x1100000400000000).toNat ∧
    fieldOp 0x3100000700000000 = 0x31 ∧ (fieldA 0x3100000700000000).toNat < 2 * small.n ∧
      2 * small.n ≤ (fieldA 0x3100000800000000).toNat ∧
    fieldOp 0x4000000300000000 = 0x40 ∧ (fieldA 0x4000000300000000).toNat < small.n ∧
      small.n ≤ (fieldA 0x4000000400000000).toNat ∧
    fieldOp 0x5000000100000000 = 0x50 ∧ (fieldA 0x5000000100000000).toNat < 2 ∧
      2 ≤ (fieldA 0x5000000200000000).toNat ∧
    fieldOp 0x20FF000F0000000F = 0x20 ∧ fieldZ 0x20FF000F0000000F ≠ 0 := by decide

/-- RdsrReadsTheStatusRegisters: the first and the last register. -/
theorem witness_rdsr : (0 : Index).toNat < 8 ∧ (7 : Index).toNat < 8 := by decide

/-- AccCountsOneSymbol: TOTAL at its largest, and one below. -/
theorem witness_acc :
    Machine.Inv full ∧ full.total.toNat = 2 ^ full.cfg.freqW - 1 ∧ (3 : Index).toNat < full.cfg.n ∧
    Machine.Inv nearlyFull ∧ nearlyFull.total.toNat ≠ 2 ^ nearlyFull.cfg.freqW - 1 :=
  ⟨inv_full, by decide, by decide, inv_nearlyFull, by decide⟩

/-- QpushInsertsOneItem: the queue full, and with room for one, at the largest id and frequency. -/
theorem witness_qpush :
    Machine.Inv queueFull ∧ queueFull.queue.length = 2 * queueFull.cfg.n ∧
    Machine.Inv queueNearlyFull ∧ queueNearlyFull.queue.length ≠ 2 * queueNearlyFull.cfg.n ∧
    (15 : Index).toNat < 2 ^ small.idxW ∧ (15 : Freq).toNat < 2 ^ small.freqW :=
  ⟨inv_queueFull, by decide, inv_queueNearlyFull, by decide, by decide, by decide⟩

/-- QpopRemovesTheHead: the queue empty, and with one item. -/
theorem witness_qpop : three.queue = [] ∧
    ({ three with queue := [⟨0, 0⟩] } : State).queue = ⟨0, 0⟩ :: [] := by decide

/-- QueueStaysSortedAndStable: items of equal frequency. -/
theorem witness_sorted : QueueSorted [⟨9, 4⟩, ⟨1, 4⟩] ∧
    pop [⟨9, 4⟩, ⟨1, 4⟩] = some (⟨9, 4⟩, [⟨1, 4⟩]) := by decide

/-- BUILD's statements: no symbol active, and some, the last one among them. -/
theorem witness_build :
    (∀ i, i < queueFull.cfg.n → histGet queueFull i = 0) ∧
    Machine.Inv three ∧ (∃ i, i < three.cfg.n ∧ histGet three i ≠ 0) ∧
    Machine.Inv treeOne ∧ (∃ i, i < treeOne.cfg.n ∧ histGet treeOne i ≠ 0) :=
  ⟨by decide, inv_three, ⟨3, by decide⟩, inv_treeOne, ⟨2, by decide⟩⟩

/-- BuildDependsOnTheHistogramOnly: a clean state, and one with an old tree, items and bits. -/
theorem witness_build_twice :
    three.cfg = treeThree.cfg ∧
    (∀ i, i < three.cfg.n →
      histGet three i = histGet { treeThree with queue := [⟨1, 1⟩], bits := [true] } i) ∧
    exec .build three = .next treeThree ∧
    exec .build { treeThree with queue := [⟨1, 1⟩], bits := [true] } =
      .next { treeThree with bits := [true] } :=
  ⟨rfl, fun _ _ => rfl, of_nextState (by decide), of_nextState (by decide)⟩

/-- NrdReadsOneNode: the last node, and the root. -/
theorem witness_nrd : (7 : Index).toNat < 2 * small.n ∧
    arenaGet treeThree (5 : Index).toNat = ⟨15, 3, 4, 4⟩ := by decide

/-- The climb from a leaf that is the root, and from the deepest leaf. -/
theorem witness_climbs : Climbs treeOne 2 [] ∧ Climbs treeThree 1 [true, true] :=
  ⟨.root 2 (by decide),
    .up 1 4 [true] (by decide) (by decide) (by decide)
      (.up 4 5 [] (by decide) (by decide) (by decide) (.root 5 (by decide)))⟩

/-- PathReturnsTheWalkReversed, its clauses on the state: a symbol not in the tree, the two climbs above
within N steps, and the invariant. -/
theorem witness_path :
    (2 : Index).toNat < small.n ∧ (arenaGet treeThree (2 : Index).toNat).freq = 0 ∧
    (arenaGet treeOne (2 : Index).toNat).freq ≠ 0 ∧
    (arenaGet treeThree (1 : Index).toNat).freq ≠ 0 ∧ [true, true].length ≤ small.n ∧
    Machine.Inv treeThree :=
  ⟨by decide, by decide, by decide, by decide, by decide, inv_treeThree⟩

/-- CodesHaveTheStatedLengths: two or more active leaves, and one. -/
theorem witness_lengths :
    Machine.Inv treeThree ∧ 2 ≤ treeThree.nleaf.toNat ∧ (1 : Index).toNat < treeThree.cfg.n ∧
    Machine.Inv treeOne ∧ treeOne.nleaf.toNat = 1 ∧
    (arenaGet treeOne (2 : Index).toNat).freq ≠ 0 :=
  ⟨inv_treeThree, by decide, by decide, inv_treeOne, by decide, by decide⟩

/-- CodesArePrefixFree: two symbols whose codes part at the last bit. -/
theorem witness_prefix :
    Machine.Inv treeThree ∧ treeThree.err = 0 ∧ (0 : Index) ≠ 1 ∧
    (0 : Index).toNat < treeThree.cfg.n ∧ (arenaGet treeThree (0 : Index).toNat).freq ≠ 0 ∧
    (1 : Index).toNat < treeThree.cfg.n ∧ (arenaGet treeThree (1 : Index).toNat).freq ≠ 0 :=
  ⟨inv_treeThree, rfl, by decide, by decide, by decide, by decide, by decide⟩

/-- The codes of the three symbols. -/
def codeThree (i : Nat) : List Bool :=
  if i = 0 then [true, false] else if i = 1 then [true, true] else [false]

theorem witness_path_answers :
    exec (.path 0) treeThree =
      .next { treeThree with response := some { d := 2, code := [true, false] } } ∧
    exec (.path 1) treeThree =
      .next { treeThree with response := some { d := 2, code := [true, true] } } ∧
    exec (.path 3) treeThree =
      .next { treeThree with response := some { d := 1, code := [false] } } ∧
    exec (.path 2) treeOne = .next { treeOne with response := some { d := 1, code := [false] } } :=
  ⟨of_nextState (by decide), of_nextState (by decide), of_nextState (by decide),
    of_nextState (by decide)⟩

theorem witness_kraft_codes (i : Nat) (hi : i < treeThree.cfg.n)
    (hm : (arenaGet treeThree i).freq ≠ 0) :
    ∃ d, exec (.path (BitVec.ofNat 16 i)) treeThree =
      .next { treeThree with response := some { d := d, code := codeThree i } } := by
  obtain ⟨h0, h1, h3, -⟩ := witness_path_answers
  have h4 : i < 4 := hi
  obtain rfl | rfl | rfl | rfl : i = 0 ∨ i = 1 ∨ i = 2 ∨ i = 3 := by omega
  · exact ⟨2, h0⟩
  · exact ⟨2, h1⟩
  · exact (hm (by decide)).elim
  · exact ⟨1, h3⟩

theorem witness_kraft_one_codes (i : Nat) (hi : i < treeOne.cfg.n)
    (hm : (arenaGet treeOne i).freq ≠ 0) :
    ∃ d, exec (.path (BitVec.ofNat 16 i)) treeOne =
      .next { treeOne with response := some { d := d, code := codeThree i } } := by
  have h4 : i < 4 := hi
  obtain rfl | rfl | rfl | rfl : i = 0 ∨ i = 1 ∨ i = 2 ∨ i = 3 := by omega
  · exact (hm (by decide)).elim
  · exact (hm (by decide)).elim
  · exact ⟨1, witness_path_answers.2.2.2⟩
  · exact (hm (by decide)).elim

/-- CodesMeetKraftsEquality, with three active leaves. -/
theorem witness_kraft :
    Machine.Inv treeThree ∧ treeThree.err = 0 ∧ treeThree.root ≠ treeThree.cfg.none ∧
    (∀ i, i < treeThree.cfg.n → (arenaGet treeThree i).freq ≠ 0 →
      ∃ d, exec (.path (BitVec.ofNat 16 i)) treeThree =
        .next { treeThree with response := some { d := d, code := codeThree i } }) :=
  ⟨inv_treeThree, rfl, by decide, witness_kraft_codes⟩

/-- CodesMeetKraftsEquality, with one active leaf. -/
theorem witness_kraft_one :
    Machine.Inv treeOne ∧ treeOne.err = 0 ∧ treeOne.root ≠ treeOne.cfg.none ∧
    (∀ i, i < treeOne.cfg.n → (arenaGet treeOne i).freq ≠ 0 →
      ∃ d, exec (.path (BitVec.ofNat 16 i)) treeOne =
        .next { treeOne with response := some { d := d, code := codeThree i } }) :=
  ⟨inv_treeOne, rfl, by decide, witness_kraft_one_codes⟩

/-- PackedCodesWalkBackToTheSymbols: a sequence with a repeat. -/
theorem witness_roundTrip :
    ∀ sym ∈ [(1 : Index), 3, 1], ∃ d, exec (.path sym) treeThree =
      .next { treeThree with response := some { d := d, code := codeThree sym.toNat } } := by
  obtain ⟨-, h1, h3, -⟩ := witness_path_answers
  intro sym hs
  rcases List.mem_cons.1 hs with rfl | hs
  · exact ⟨2, h1⟩
  · rcases List.mem_cons.1 hs with rfl | hs
    · exact ⟨1, h3⟩
    · rw [List.mem_singleton.1 hs]
      exact ⟨2, h1⟩

/-- AbitAppendsOneBit: the buffer full, and with room for one bit. -/
theorem witness_abit : bitsFull.bits.length = bitsFull.cfg.bitbufCap ∧ (1 : Index).toNat < 2 ∧
    bitsNearlyFull.bits.length ≠ bitsNearlyFull.cfg.bitbufCap := by decide

/-- PackPlacesTheFirstBitOnTop: the last bit of the buffer, and the first of the padding. -/
theorem witness_pack : 1 < ((List.replicate 9 true).length + 7) >>> 3 ∧
    8 * 1 + 0 < (List.replicate 9 true).length ∧
    ¬ 8 * 1 + 1 < (List.replicate 9 true).length := by decide

/-! The pseudo-commands. -/

/-- AccumulateCountsEveryByte: TOTAL reaches its largest. -/
theorem witness_accumulate :
    Machine.Inv nearlyFull ∧ nearlyFull.err = 0 ∧ (∀ b ∈ [(3 : Index)], b.toNat < nearlyFull.cfg.n) ∧
    nearlyFull.total.toNat + [(3 : Index)].length ≤ 2 ^ nearlyFull.cfg.freqW - 1 :=
  ⟨inv_nearlyFull, rfl, List.forall_mem_singleton.2 (by decide), by decide⟩

/-- AppendBitsAppendsInOrder: the buffer is filled to its last bit. -/
theorem witness_appendBits :
    bitsNearlyFull.err = 0 ∧
    bitsNearlyFull.bits.length + [true].length ≤ bitsNearlyFull.cfg.bitbufCap := by decide

/-- EncodeOfNothingFaults. -/
theorem witness_encodeNothing : (State.initial small).cfg.WellFormed ∧
    (State.initial small).err = 0 ∧
    (∀ i, i < (State.initial small).cfg.n → histGet (State.initial small) i = 0) := by decide

/-- EncodeRoundTrips: four bytes, which by the bound fill the buffer. -/
theorem witness_encodeRoundTrip :
    Machine.Inv (State.initial small) ∧ (State.initial small).err = 0 ∧
    (State.initial small).total = 0 ∧ (State.initial small).bits = [] ∧
    [(0 : Index), 1, 3, 3] ≠ [] ∧ (∀ b ∈ [(0 : Index), 1, 3, 3], b.toNat < small.n) ∧
    [(0 : Index), 1, 3, 3].length ≤ 2 ^ small.freqW - 1 ∧
    [(0 : Index), 1, 3, 3].length * small.n ≤ small.bitbufCap :=
  ⟨inv_small, by decide, by decide, by decide, by decide,
    by rw [List.forall_mem_cons, List.forall_mem_cons, List.forall_mem_cons,
      List.forall_mem_singleton]; decide,
    by decide, by decide⟩

end Sys2Proof.Tests
end

section
/-!
PROOFS. The family 00_scope.md: `step` refuses exactly the ill-formed configurations (R12), and runs
the command that the host's next word decodes to (R5).
-/

namespace Sys2Proof.Machine

/-- An ill-formed word is answered by a next state, faulted or not. -/
theorem illegal_ne_refused (s : State) (r : Refusal) : illegal s ≠ .refused r := by
  rcases illegal_cases s with ⟨-, h⟩ | ⟨-, h⟩ <;> simp [h]

/-- No word is refused by the model: neither the command it decodes to nor the entry of
IllegalCommand. -/
theorem runWord_ne_refused (w : Word) (s : State) (r : Refusal) : runWord w s ≠ .refused r := by
  cases hd : decode s.cfg w with
  | ok i =>
    rw [runWord_ok hd]
    exact exec_ne_refused i s r
  | error e =>
    rw [runWord_error fun i hi => by simp [hd] at hi]
    exact illegal_ne_refused s r

/-- No event of the host is refused. -/
theorem handle_ne_refused (e : HostEvent) (s : State) (r : Refusal) : handle e s ≠ .refused r := by
  cases e with
  | command w => exact runWord_ne_refused w s r
  | hardwareReset => exact fun h => nomatch h

theorem step_idle {s : State} (hc : s.cfg.WellFormed) (hp : s.pending = []) : step s = .next s := by
  rw [step, if_pos hc, takeEvent, hp]

theorem step_of_not_wellFormed {s : State} (hc : ¬ s.cfg.WellFormed) :
    step s = .refused .capacityExceeded := if_neg hc

/-- In a well-formed configuration a step is never refused, whatever the state and the event. -/
theorem step_ne_refused {s : State} (hc : s.cfg.WellFormed) (r : Refusal) :
    step s ≠ .refused r := by
  cases hp : s.pending with
  | nil => simp [step_idle hc hp]
  | cons e rest =>
    rw [step_event hc hp]
    exact handle_ne_refused e _ r

/-- The one refusal of `step` is that of R12. -/
theorem step_eq_refused_iff (s : State) :
    step s = .refused .capacityExceeded ↔ ¬ s.cfg.WellFormed :=
  ⟨fun h hc => step_ne_refused hc _ h, step_of_not_wellFormed⟩

/-- Settles O11: the refusal is equivalent to the failure of the configuration check, which is the six
conditions of R12. -/
theorem illFormedConfigurationHasNoStep : Obligations.IllFormedConfigurationHasNoStep := by
  intro s
  rw [step_eq_refused_iff, Config.wellFormed_iff]

/-- Settles O7: the step handles the word in the state without it, whose configuration, and so whose
decoding of the word, is the same. -/
theorem stepRunsTheDecodedCommand : Obligations.StepRunsTheDecodedCommand := by
  intro s w rest i hc hp hd
  calc step s = runWord w { s with pending := rest } := step_event hc hp
    _ = exec i { s with pending := rest } := runWord_ok hd

end Sys2Proof.Machine
end

section
/-!
PROOFS. The family 10_state.md: the reset state is the table of R37, every step keeps the invariant of
R38, and with it the last arena entry keeps its reset value (R25).
-/

namespace Sys2Proof.Machine

/-! ## The reset state (R37) -/

/-- The block of a well-formed configuration meets the invariant right after reset. -/
theorem inv_initial {c : Config} (hc : c.WellFormed) : Inv (State.initial c) :=
  inv_cleared (s := State.initial c) hc

/-- Settles O13: the default configuration is well formed. -/
theorem resetMeetsTheInvariant : Obligations.ResetMeetsTheInvariant :=
  inv_initial Config.default_wellFormed

/-- Settles O14: no element of the stores is listed after reset, so each reads as its reset value; the
registers are computed from the default configuration. -/
theorem resetStateIsTheTable : Obligations.ResetStateIsTheTable := by
  refine ⟨fun i _ => rfl, fun i _ => ?_, rfl, rfl, rfl, ?_, rfl, ?_, rfl, ?_⟩
  · calc arenaGet State.reset i = nodeReset Config.default := nodeGet_nil Config.default i
      _ = ⟨0xFFFF, 0xFFFF, 0xFFFF, 0⟩ := by decide
  · show Config.default.none = 0xFFFF
    decide
  · show Config.default.toIndex Config.default.n = 0x0100
    decide
  · decide

/-! ## Every step keeps the invariant (R38) -/

/-- A command's own fault is never the host's CapacityExceeded (60_exceptions.md R134). -/
theorem OwnFault.ne_capacityExceeded {i : Instr} {s : State} {k : FaultKind} (h : OwnFault i s k) :
    k ≠ .capacityExceeded := by
  rintro rfl
  cases i with
  | acc | qpush | qpop | build | path | abit => exact nomatch h.2
  | _ => exact h

/-- The effect of every command but BUILD keeps the invariant. -/
theorem Inv.effect {i : Instr} {s t : State} (h : Inv s) (hw : i.WellFormed s.cfg)
    (hb : i ≠ .build) (he : Effect i s t) : Inv t := by
  cases i with
  | build => exact absurd rfl hb
  | reset => subst he; exact (inv_cleared h.cfg).respond _
  | rdsr | hrd | qempty | nrd | bsize => subst he; exact h.respond _
  | acc sym =>
    obtain ⟨ht, rfl⟩ := he
    exact (h.accumulate ht (symbolOk_iff.1 hw)).respond _
  | qpush id freq =>
    obtain ⟨hl, rfl⟩ := he
    exact (h.push hl ⟨queueId_lt h.cfg id, queueFreq_lt h.cfg freq⟩).respond _
  | qpop =>
    obtain ⟨it, rest, hq, rfl⟩ := he
    exact (h.pop hq).respond _
  | path sym =>
    obtain ⟨-, code, -, rfl⟩ := he
    exact h.respond _
  | abit bit =>
    obtain ⟨hl, rfl⟩ := he
    have hlen : (s.bits ++ [bitOf bit]).length ≤ s.cfg.bitbufCap := by
      have := h.bits_le
      rw [List.length_append, List.length_singleton]
      omega
    exact (h.bits hlen).respond _
  | flush => subst he; exact (h.bits (Nat.zero_le _)).respond _

/-- BUILD in a state that meets the invariant leaves what `Built` says. -/
theorem Inv.built_of_exec {s t : State} (h : Inv s) (he : s.err = 0) (ha : activeLeaves s ≠ [])
    (hx : exec .build s = .next t) : Built s t := by
  obtain ⟨t', hrun, hb⟩ := execBuild_built h he ha
  have ht : Host.Outcome.next t' = .next t := hrun.symm.trans hx
  cases ht
  exact hb

/-- Every command keeps the invariant, whether it executes, faults or is refused. -/
theorem Inv.exec {i : Instr} {s t : State} (h : Inv s) (hx : exec i s = .next t) : Inv t := by
  rcases exec_cases hx with ⟨-, -, rfl⟩ | ⟨-, -, rfl⟩ | ⟨-, -, k, hk, rfl⟩ | ⟨hw, hrun, he⟩
  · exact h.refused
  · exact h.faulted (by decide)
  · exact h.faulted hk.ne_capacityExceeded
  · by_cases hi : i = .build
    · subst hi
      obtain herr | hr | ⟨n, hr⟩ := hrun
      · exact h.built (h.built_of_exec herr he.1 hx)
      · exact nomatch hr
      · exact nomatch hr
    · exact h.effect hw hi he

/-- An illegal word keeps the invariant, faulted or not. -/
theorem Inv.illegal {s t : State} (h : Inv s) (hx : illegal s = .next t) : Inv t := by
  rcases illegal_cases s with ⟨-, hi⟩ | ⟨-, hi⟩
  · cases hi.symm.trans hx
    exact h.refused
  · cases hi.symm.trans hx
    exact h.faulted (by decide)

/-- The hardware reset leads to the invariant from every state of a well-formed configuration. -/
theorem inv_hardwareReset {s : State} (hc : s.cfg.WellFormed) : Inv (hardwareReset s) :=
  (inv_cleared hc).interface none s.pending

/-- A step keeps the invariant, whatever the event it takes. -/
theorem Inv.step {s t : State} (h : Inv s) (hx : step s = .next t) : Inv t := by
  obtain ⟨hc, hcases⟩ := step_cases hx
  rcases hcases with ⟨-, rfl⟩ | ⟨rest, -, rfl⟩ | ⟨w, rest, -, ⟨i, -, hi⟩ | ⟨-, hi⟩⟩
  · exact h
  · exact inv_hardwareReset hc
  · exact (h.pending rest).exec hi
  · exact (h.pending rest).illegal hi

/-- Settles O12: by the event of the step, and for a word by the way its command answers. -/
theorem everyStepKeepsTheInvariant : Obligations.EveryStepKeepsTheInvariant :=
  fun _ _ h hx => h.step hx

/-! ## The configuration is not state (R39) -/

theorem Effect.cfg_eq {i : Instr} {s t : State} (he : Effect i s t) : t.cfg = s.cfg := by
  cases i with
  | reset | rdsr | hrd | qempty | nrd | flush | bsize => subst he; rfl
  | acc | qpush | abit => obtain ⟨-, rfl⟩ := he; rfl
  | qpop => obtain ⟨it, rest, -, rfl⟩ := he; rfl
  | build => obtain ⟨-, root, w, -, rfl⟩ := he; rfl
  | path => obtain ⟨-, code, -, rfl⟩ := he; rfl

theorem exec_cfg {i : Instr} {s t : State} (hx : exec i s = .next t) : t.cfg = s.cfg := by
  rcases exec_cases hx with ⟨-, -, rfl⟩ | ⟨-, -, rfl⟩ | ⟨-, -, k, -, rfl⟩ | ⟨-, -, he⟩
  · rfl
  · rfl
  · rfl
  · exact he.cfg_eq

theorem illegal_cfg {s t : State} (hx : illegal s = .next t) : t.cfg = s.cfg := by
  rcases illegal_cases s with ⟨-, hi⟩ | ⟨-, hi⟩
  · cases hi.symm.trans hx; rfl
  · cases hi.symm.trans hx; rfl

theorem step_cfg {s t : State} (hx : step s = .next t) : t.cfg = s.cfg := by
  obtain ⟨-, hcases⟩ := step_cases hx
  rcases hcases with ⟨-, rfl⟩ | ⟨rest, -, rfl⟩ | ⟨w, rest, -, ⟨i, -, hi⟩ | ⟨-, hi⟩⟩
  · rfl
  · rfl
  · exact exec_cfg (s := { s with pending := rest }) hi
  · exact illegal_cfg (s := { s with pending := rest }) hi

/-! ## The last arena entry (R25) -/

/-- In a tree of at most N leaves the next internal index is at most `2N - 1`. -/
theorem IsTree.next_le {c : Config} {A : Store Node} {root nleaf next : Nat}
    (h : IsTree c A root nleaf next) : next ≤ 2 * c.n - 1 := by
  have hle : nleaf ≤ c.n := by
    rw [← h.leaf_count]
    exact (List.length_filter_le _ _).trans_eq List.length_range
  have := h.next_eq
  omega

/-- NNEXT never passes `2N - 1`, with a tree or without. -/
theorem Inv.nnext_le {s : State} (h : Inv s) : s.nnext.toNat ≤ 2 * s.cfg.n - 1 := by
  rcases h.tree with hn | ⟨-, ht⟩
  · have := hn.nnext
    have := (s.cfg.wellFormed_iff.1 h.cfg).1
    omega
  · exact ht.next_le

/-- From NNEXT up every arena entry has its reset value. -/
theorem Inv.arenaGet_of_nnext_le {s : State} (h : Inv s) {i : Nat} (hi : s.nnext.toNat ≤ i) :
    arenaGet s i = nodeReset s.cfg := by
  rcases h.tree with hn | ⟨-, ht⟩
  · exact hn.arena i
  · exact ht.absent i (.inr hi)

/-- A materialised node stands below NNEXT. -/
theorem Inv.lt_nnext_of_materialised {s : State} (h : Inv s) {i : Nat}
    (hm : Materialised s.cfg s.arena i) : i < s.nnext.toNat := by
  by_contra hi
  have hreset : nodeGet s.cfg s.arena i = nodeReset s.cfg := h.arenaGet_of_nnext_le (by omega)
  exact hm (by rw [nodeFreq, hreset]; rfl)

theorem Inv.arenaGet_last {s : State} (h : Inv s) :
    arenaGet s (2 * s.cfg.n - 1) = nodeReset s.cfg :=
  h.arenaGet_of_nnext_le h.nnext_le

/-- Settles O34: NNEXT is at most `2N - 1`, and from NNEXT up nothing is materialised; the step keeps
the invariant and the configuration, so the same holds after it. -/
theorem lastNodeIsNeverWritten : Obligations.LastNodeIsNeverWritten := by
  intro s h
  have hnext := h.nnext_le
  refine ⟨by omega, fun i hm => (h.lt_nnext_of_materialised hm).trans_le hnext, h.arenaGet_last,
    fun t hx => ?_⟩
  rw [← step_cfg hx]
  exact (h.step hx).arenaGet_last

end Sys2Proof.Machine
end

section
/-!
PROOFS. The family 20_memory.md: which command can write which piece of state (R41), and that the
reading commands write none and repeat their response (R46).
-/

namespace Sys2Proof.Machine

/-! ## Which command writes what (R41) -/

/-- The frame of a command: each piece of state is as it was, unless the command is one that writes it
(R41 for the stores, 10_state.md R31 to R33 and R39 for the rest). -/
structure WritesOnlyItsStores (i : Instr) (s t : State) : Prop where
  cfg : t.cfg = s.cfg
  pending : t.pending = s.pending
  hist : i = .reset ∨ (∃ sym, i = .acc sym) ∨ (t.hist = s.hist ∧ t.total = s.total)
  tree : i = .reset ∨ i = .build ∨
    (t.arena = s.arena ∧ t.root = s.root ∧ t.nleaf = s.nleaf ∧ t.nnext = s.nnext)
  queue : i = .reset ∨ i = .build ∨ i = .qpop ∨ (∃ id freq, i = .qpush id freq) ∨ t.queue = s.queue
  bits : i = .reset ∨ i = .flush ∨ (∃ bit, i = .abit bit) ∨ t.bits = s.bits

/-- A change of ERR and the response alone, as by a fault, a refusal or a reading command, is in every
command's frame. -/
theorem WritesOnlyItsStores.of_err_response (i : Instr) (s : State) (e : Code)
    (r : Option Response) : WritesOnlyItsStores i s { s with err := e, response := r } where
  cfg := rfl
  pending := rfl
  hist := .inr (.inr ⟨rfl, rfl⟩)
  tree := .inr (.inr ⟨rfl, rfl, rfl, rfl⟩)
  queue := .inr (.inr (.inr (.inr rfl)))
  bits := .inr (.inr (.inr rfl))

/-- The effect of a command stays in its frame. -/
theorem Effect.writesOnlyItsStores {i : Instr} {s t : State} (he : Effect i s t) :
    WritesOnlyItsStores i s t := by
  cases i with
  | rdsr | hrd | qempty | nrd | bsize => subst he; exact .of_err_response _ s _ _
  | path =>
    obtain ⟨-, code, -, rfl⟩ := he
    exact .of_err_response _ s _ _
  | reset => subst he; constructor <;> simp
  | acc => obtain ⟨-, rfl⟩ := he; constructor <;> simp
  | qpush => obtain ⟨-, rfl⟩ := he; constructor <;> simp
  | qpop => obtain ⟨it, rest, -, rfl⟩ := he; constructor <;> simp
  | build => obtain ⟨-, root, w, -, rfl⟩ := he; constructor <;> simp
  | abit => obtain ⟨-, rfl⟩ := he; constructor <;> simp
  | flush => subst he; constructor <;> simp

/-- Every command stays in its frame, whether it executes, faults or is refused. -/
theorem exec_writesOnlyItsStores {i : Instr} {s t : State} (hx : exec i s = .next t) :
    WritesOnlyItsStores i s t := by
  rcases exec_cases hx with ⟨-, -, rfl⟩ | ⟨-, -, rfl⟩ | ⟨-, -, k, -, rfl⟩ | ⟨-, -, he⟩
  · exact .of_err_response i s _ _
  · exact .of_err_response i s _ _
  · exact .of_err_response i s _ _
  · exact he.writesOnlyItsStores

/-- Settles O19: by the four ways a command answers, of which only its effect touches a store. -/
theorem commandsWriteOnlyTheirStores : Obligations.CommandsWriteOnlyTheirStores := by
  intro i s t hx
  obtain ⟨hcfg, hpending, hhist, htree, hqueue, hbits⟩ := exec_writesOnlyItsStores hx
  exact ⟨hcfg, hpending, hhist, htree, hqueue, hbits⟩

/-! ## The reading commands (R46) -/

/-- Every fault has a code of its own other than 0 (60_exceptions.md R134). -/
theorem FaultKind.code_ne_zero (k : FaultKind) : k.code ≠ 0 := by cases k <;> decide

/-- A command that leaves ERR at 0 was well formed and executed. -/
theorem effect_of_err_eq_zero {i : Instr} {s t : State} (he : s.err = 0) (hx : exec i s = .next t)
    (ht : t.err = 0) : i.WellFormed s.cfg ∧ Effect i s t := by
  rcases exec_cases hx with ⟨hs, -, -⟩ | ⟨-, -, rfl⟩ | ⟨-, -, k, -, rfl⟩ | ⟨hw, -, heff⟩
  · exact absurd he hs
  · exact absurd ht (FaultKind.code_ne_zero .illegalCommand)
  · exact absurd ht (FaultKind.code_ne_zero k)
  · exact ⟨hw, heff⟩

/-- The commands that read (R46). -/
def IsReading : Instr → Prop
  | .hrd _ | .nrd _ | .qempty | .bsize | .rdsr _ | .path _ => True
  | _ => False

/-- A reading command writes the response and nothing else. -/
theorem Effect.eq_respond {i : Instr} {s t : State} (hi : IsReading i) (he : Effect i s t) :
    ∃ r, t = respond r s := by
  cases i with
  | rdsr | hrd | qempty | nrd | bsize => exact ⟨_, he⟩
  | path =>
    obtain ⟨-, code, -, ht⟩ := he
    exact ⟨_, ht⟩
  | _ => exact hi.elim

@[simp] theorem codeOf_respond (r : Response) (s : State) (sym : Index) :
    codeOf (respond r s) sym = codeOf s sym :=
  codeOf_congr (respond_cfg r s) (respond_arena r s) sym

/-- What a reading command reads is not the response, so in the state it leaves its effect is that
state again. -/
theorem Effect.repeats {i : Instr} {s t : State} (hi : IsReading i) (he : Effect i s t) :
    Effect i t t := by
  cases i with
  | rdsr | hrd | qempty | nrd | bsize => subst he; rfl
  | path sym =>
    obtain ⟨hf, code, hcode, rfl⟩ := he
    exact ⟨hf, code, (codeOf_respond _ s sym).trans hcode, rfl⟩
  | _ => exact hi.elim

/-- A well-formed reading command executes to its effect: with no fault latched, and RDSR always
(60_exceptions.md R140). -/
theorem exec_of_effect_reading {i : Instr} {s t : State} (hi : IsReading i)
    (hw : i.WellFormed s.cfg) (hrun : s.err = 0 ∨ ∃ n, i = .rdsr n) (he : Effect i s t) :
    exec i s = .next t := by
  cases i with
  | rdsr => subst he; exact if_pos hw
  | hrd | nrd | qempty | bsize =>
    subst he
    exact guarded_run (hrun.resolve_right fun ⟨n, hn⟩ => nomatch hn) hw
  | path sym =>
    obtain ⟨hf, code, hcode, rfl⟩ := he
    have h0 : s.err = 0 := hrun.resolve_right fun ⟨n, hn⟩ => nomatch hn
    refine (guarded_run h0 hw).trans ?_
    rw [if_neg hf, hcode]
  | _ => exact hi.elim

/-- R46 for a reading command that executed: the state but for the response is as it was, and the
command answers the same again. -/
theorem Effect.reading_unchanged_and_repeats {i : Instr} {s t : State} (hi : IsReading i)
    (hw : i.WellFormed s.cfg) (hrun : s.err = 0 ∨ ∃ n, i = .rdsr n) (he : Effect i s t) :
    { t with response := s.response } = s ∧ exec i t = .next t := by
  have hrep : Effect i t t := he.repeats hi
  obtain ⟨r, rfl⟩ := he.eq_respond hi
  exact ⟨rfl, exec_of_effect_reading hi hw hrun hrep⟩

/-- Settles O20: the effect of a reading command is a response, which no command reads; QPOP's effect
takes the head and FLUSH's empties the buffer. -/
theorem readingCommandsChangeNothing : Obligations.ReadingCommandsChangeNothing := by
  refine ⟨fun i s t he hx ht hi => ?_, fun n s t hn hx => ?_, fun s t he hx ht => ?_,
    fun s t he hx => ?_⟩
  · obtain ⟨hw, heff⟩ := effect_of_err_eq_zero he hx ht
    exact heff.reading_unchanged_and_repeats hi hw (.inl he)
  · have heff : Effect (.rdsr n) s t := exec_always (.inr ⟨n, rfl, hn⟩) hx
    exact heff.reading_unchanged_and_repeats trivial (statusNumberOk_iff.2 hn) (.inr ⟨n, rfl⟩)
  · obtain ⟨-, it, rest, hq, rfl⟩ := effect_of_err_eq_zero he hx ht
    exact ⟨it, _, hq, rfl, rfl, rfl⟩
  · rcases exec_body (i := .flush) he rfl hx with ⟨k, hk, -⟩ | rfl
    · exact hk.elim
    · exact ⟨_, rfl, rfl, rfl⟩

end Sys2Proof.Machine
end

section
/-!
PROOFS. The family 30_encoding.md: `decode` and `encode` are inverse to each other on the well-formed
commands (R55, R58), the word of each command as a number (R59, R60, R62), the opcode table (R60), and
what the block does with a word that is, or is not, well formed (R58, R61).
-/

namespace Sys2Proof

open Laws.EncodeFields (operandA operandB)

/-! ## A command as its opcode and its two operand fields -/

/-- The opcode of a command (R60). -/
def Instr.opcode : Instr → Opcode
  | .reset => .reset
  | .rdsr _ => .rdsr
  | .acc _ => .acc
  | .hrd _ => .hrd
  | .qpush _ _ => .qpush
  | .qpop => .qpop
  | .qempty => .qempty
  | .build => .build
  | .nrd _ => .nrd
  | .path _ => .path
  | .abit _ => .abit
  | .flush => .flush
  | .bsize => .bsize

theorem encode_eq_assemble (i : Instr) :
    encode i = assemble i.opcode.number (operandA i) (operandB i) := by
  cases i <;> rfl

theorem Opcode.number_inj {o p : Opcode} : o.number = p.number ↔ o = p :=
  ⟨fun h => Option.some.inj (by rw [← opcodeOf_number o, h, opcodeOf_number p]), congrArg _⟩

theorem Instr.eq_reset_of_opcode {i : Instr} (h : i.opcode = .reset) : i = .reset := by
  cases i with
  | reset => rfl
  | _ => exact nomatch h

theorem Instr.eq_rdsr_of_opcode {i : Instr} (h : i.opcode = .rdsr) : i = .rdsr (operandA i) := by
  cases i with
  | rdsr n => rfl
  | _ => exact nomatch h

/-! ## Decoding and encoding -/

/-- An opcode and two operand fields are read as a command exactly when they are the command's own and
it is well formed. -/
theorem decodeOperands_ok {c : Config} {o : Opcode} {a : Index} {b : Freq} {i : Instr} :
    decodeOperands c o a b = .ok i ↔
      o = i.opcode ∧ a = operandA i ∧ b = operandB i ∧ i.WellFormed c := by
  constructor
  · intro h
    cases o with
    | reset | qpop | qempty | build | flush | bsize =>
      obtain ⟨rfl, rfl, rfl⟩ := decodeNone_ok.1 h
      exact ⟨rfl, rfl, rfl, rfl⟩
    | rdsr | acc | hrd | nrd | path | abit =>
      obtain ⟨rfl, hw, rfl⟩ := decodeA_ok.1 h
      exact ⟨rfl, rfl, rfl, hw⟩
    | qpush =>
      obtain ⟨hw, rfl⟩ := decodeAB_ok.1 h
      exact ⟨rfl, rfl, rfl, hw⟩
  · rintro ⟨rfl, rfl, rfl, hw⟩
    cases i with
    | reset | qpop | qempty | build | flush | bsize => exact decodeNone_ok.2 ⟨rfl, rfl, rfl⟩
    | rdsr | acc | hrd | nrd | path | abit => exact decodeA_ok.2 ⟨rfl, hw, rfl⟩
    | qpush => exact decodeAB_ok.2 ⟨hw, rfl⟩

/-- A word decodes to a command exactly when its four fields are the command's and the command is well
formed. -/
theorem decode_ok_iff_fields {c : Config} {w : Word} {i : Instr} :
    decode c w = .ok i ↔ fieldZ w = 0 ∧ fieldOp w = i.opcode.number ∧ fieldA w = operandA i ∧
      fieldB w = operandB i ∧ i.WellFormed c := by
  rw [decode_ok]
  constructor
  · rintro ⟨hz, o, ho, h⟩
    obtain ⟨rfl, ha, hb, hw⟩ := decodeOperands_ok.1 h
    exact ⟨hz, ho, ha, hb, hw⟩
  · rintro ⟨hz, ho, ha, hb, hw⟩
    exact ⟨hz, i.opcode, ho, decodeOperands_ok.2 ⟨rfl, ha, hb, hw⟩⟩

/-- A word decodes to a command exactly when it is the command's encoding and the command is well
formed. -/
theorem decode_ok_iff_encode {c : Config} {w : Word} {i : Instr} :
    decode c w = .ok i ↔ encode i = w ∧ i.WellFormed c := by
  rw [decode_ok_iff_fields]
  constructor
  · rintro ⟨hz, ho, ha, hb, hw⟩
    refine ⟨?_, hw⟩
    rw [encode_eq_assemble, ← ho, ← ha, ← hb, assemble_fields w hz]
  · rintro ⟨rfl, hw⟩
    rw [encode_eq_assemble]
    exact ⟨fieldZ_assemble _ _ _, fieldOp_assemble _ _ _, fieldA_assemble _ _ _,
      fieldB_assemble _ _ _, hw⟩

/-- Settles O1: the fields of the encoding are the command's own, and through them it decodes. -/
theorem encodedCommandDecodesBack : Obligations.EncodedCommandDecodesBack :=
  fun _ _ hw => decode_ok_iff_encode.2 ⟨rfl, hw⟩

/-- Settles O2: a word with `z` = 0 is assembled from its fields, which are those of its command. -/
theorem decodedWordIsItsEncoding : Obligations.DecodedWordIsItsEncoding :=
  fun _ _ _ h => decode_ok_iff_encode.1 h

/-- Settles O4: each word is decoded by computation. -/
theorem specWordsDecodeAsWritten : Obligations.SpecWordsDecodeAsWritten :=
  ⟨rfl, rfl, rfl, rfl, rfl, rfl, rfl, rfl, rfl, rfl, rfl, rfl⟩

/-! ## The word of a command as a number -/

/-- A word decodes to a command exactly when its number is made of the command's opcode and operands
(R55) and the command is well formed. -/
theorem decode_ok_iff_toNat {c : Config} {w : Word} {i : Instr} :
    decode c w = .ok i ↔ w.toNat = i.opcode.number.toNat * 2 ^ 56 + (operandA i).toNat * 2 ^ 32 +
      (operandB i).toNat ∧ i.WellFormed c := by
  rw [decode_ok_iff_encode, encode_eq_assemble, ← BitVec.toNat_inj, assemble_toNat, eq_comm]

/-- Settles O5: by the command, whose unused operands are 0 and whose condition of well-formedness is
its operand's range. Nothing is asked of the operands of QPUSH. -/
theorem commandsHaveTheTableEncodings : Obligations.CommandsHaveTheTableEncodings := by
  intro c w i _
  rw [decode_ok_iff_toNat]
  cases i with
  | reset | qpop | qempty | build | flush | bsize | qpush =>
    rw [and_iff_left (show Instr.WellFormed c _ from rfl)]
    simp [Instr.opcode, Opcode.number, operandA, operandB]
  | rdsr | acc | hrd | path | nrd | abit =>
    simp [Instr.opcode, Opcode.number, operandA, operandB, Instr.WellFormed, Instr.wellFormed]

/-! ## The opcode table (R60) -/

/-- How many low bits of operand field `a` a command of this opcode can set in the default
configuration: its range is `a < 2^bits` (R62). -/
def Opcode.bitsA : Opcode → Nat
  | .rdsr => 3
  | .acc | .hrd | .path => 8
  | .qpush => 16
  | .nrd => 9
  | .abit => 1
  | .reset | .qpop | .qempty | .build | .flush | .bsize => 0

/-- The mnemonic of an opcode. -/
def Opcode.mnemonic : Opcode → String
  | .reset => "RESET"
  | .rdsr => "RDSR"
  | .acc => "ACC"
  | .hrd => "HRD"
  | .qpush => "QPUSH"
  | .qpop => "QPOP"
  | .qempty => "QEMPTY"
  | .build => "BUILD"
  | .nrd => "NRD"
  | .path => "PATH"
  | .abit => "ABIT"
  | .flush => "FLUSH"
  | .bsize => "BSIZE"

/-- The row of an opcode: the mask leaves out the bits of `a` that the opcode's operand can set, and
for QPUSH all of `b`. -/
def Opcode.row (o : Opcode) : OpcodeRow where
  mnemonic := o.mnemonic
  pattern := assemble o.number 0 0
  mask := (0xFFFF : BitVec 16) ++ BitVec.ofNat 16 (2 ^ 16 - 2 ^ o.bitsA) ++
    (if o = .qpush then 0 else BitVec.allOnes 32)

/-- The rows so made are the opcode table of the spec. -/
theorem opcodeTable_eq_map_row : opcodeTable = opcodeMap.map Opcode.row := by decide

theorem Instr.mnemonic_eq (i : Instr) : i.mnemonic = i.opcode.row.mnemonic := by
  cases i <;> rfl

theorem Opcode.bitsA_le (o : Opcode) : o.bitsA ≤ 16 := by cases o <;> decide

/-- The fields of a row's mask. -/
theorem Opcode.fields_row_mask (o : Opcode) :
    fieldOp o.row.mask = BitVec.allOnes 8 ∧ fieldZ o.row.mask = BitVec.allOnes 8 ∧
      fieldA o.row.mask = BitVec.ofNat 16 (2 ^ 16 - 2 ^ o.bitsA) ∧
      fieldB o.row.mask = if o = .qpush then 0 else BitVec.allOnes 32 := by
  cases o <;> decide

/-- A word selects the row of an opcode when `op` is the opcode's number, `z` is 0, and the operand
fields are in the opcode's ranges. -/
theorem Opcode.row_selects_iff_fields (o : Opcode) (w : Word) :
    o.row.selects w = true ↔ fieldZ w = 0 ∧ fieldOp w = o.number ∧
      (fieldA w).toNat < 2 ^ o.bitsA ∧ (o = .qpush ∨ fieldB w = 0) := by
  obtain ⟨hop, hz, ha, hb⟩ := o.fields_row_mask
  have hmaskB : fieldB w &&& (if o = .qpush then 0 else BitVec.allOnes 32) = 0 ↔
      o = .qpush ∨ fieldB w = 0 := by
    split
    · next ho => simp [ho]
    · next ho => rw [BitVec.and_allOnes, or_iff_right ho]
  rw [selects_iff, hop, hz, ha, hb, BitVec.and_allOnes, BitVec.and_allOnes]
  simp only [Opcode.row, fieldOp_assemble, fieldZ_assemble, fieldA_assemble, fieldB_assemble,
    and_high_eq_zero_iff _ _ o.bitsA_le, hmaskB]
  exact and_left_comm

theorem index_eq_zero_iff {a : Index} : a = 0 ↔ a.toNat < 2 ^ 0 := by
  rw [pow_zero, Nat.lt_one_iff, ← BitVec.toNat_inj, BitVec.ofNat_eq_ofNat, BitVec.toNat_zero]

/-- In the default configuration the operand fields decode exactly when they are in the ranges that the
masks test. -/
theorem decodeOperands_default_iff (o : Opcode) (a : Index) (b : Freq) :
    (∃ i, decodeOperands Config.default o a b = .ok i) ↔
      a.toNat < 2 ^ o.bitsA ∧ (o = .qpush ∨ b = 0) := by
  cases o with
  | reset | qpop | qempty | build | flush | bsize =>
    simp only [decodeOperands, decodeNone_ok, ← and_assoc, exists_and_left, exists_eq', and_true,
      index_eq_zero_iff, Opcode.bitsA, reduceCtorEq, false_or]
  | rdsr | acc | hrd | nrd | path | abit =>
    simp [decodeOperands, decodeA_ok, Instr.wellFormed, Opcode.bitsA, Config.default, and_comm]
  | qpush => simp [decodeOperands, decodeAB_ok, Instr.wellFormed, Opcode.bitsA, a.isLt]

/-- A word selects the row of an opcode exactly when it decodes to a command of that opcode. -/
theorem Opcode.row_selects_iff (o : Opcode) (w : Word) :
    o.row.selects w = true ↔ ∃ i, decode Config.default w = .ok i ∧ i.opcode = o := by
  rw [o.row_selects_iff_fields, ← decodeOperands_default_iff]
  constructor
  · rintro ⟨hz, ho, i, hi⟩
    exact ⟨i, decode_ok.2 ⟨hz, o, ho, hi⟩, (decodeOperands_ok.1 hi).1.symm⟩
  · rintro ⟨i, hi, rfl⟩
    obtain ⟨hz, ho, ha, hb, hw⟩ := decode_ok_iff_fields.1 hi
    exact ⟨hz, ho, i, decodeOperands_ok.2 ⟨rfl, ha, hb, hw⟩⟩

/-- The opcode map lists every opcode once. -/
theorem opcodeMap_filter_eq (o : Opcode) : opcodeMap.filter (fun p => decide (p = o)) = [o] := by
  cases o <;> decide

/-- Settles O3: the rows that a word selects are those whose opcode is the one of its command. -/
theorem opcodeTableSelectsWhatDecodes : Obligations.OpcodeTableSelectsWhatDecodes := by
  intro w
  rw [opcodeTable_eq_map_row]
  constructor
  · intro i hi
    have hsel : ∀ o ∈ opcodeMap, o.row.selects w = decide (o = i.opcode) := by
      intro o _
      rw [Bool.eq_iff_iff, o.row_selects_iff, hi, decide_eq_true_eq]
      simp [eq_comm]
    rw [List.filter_map, Function.comp_def, List.filter_congr hsel, opcodeMap_filter_eq,
      i.mnemonic_eq]
    rfl
  · intro hnone
    rw [List.filter_eq_nil_iff, List.forall_mem_map]
    intro o _ hsel
    obtain ⟨i, hi, -⟩ := (o.row_selects_iff w).1 hsel
    exact hnone i hi

end Sys2Proof

namespace Sys2Proof.Machine

/-! ## QPUSH and its operands (R56) -/

/-- Every word of opcode 0x20 with `z` = 0 is a QPUSH of its two operand fields. -/
theorem decode_qpush (c : Config) {w : Word} (ho : fieldOp w = 0x20) (hz : fieldZ w = 0) :
    decode c w = .ok (.qpush (fieldA w) (fieldB w)) :=
  decode_ok_iff_fields.2 ⟨hz, ho, rfl, rfl, rfl⟩

theorem exec_qpush_full {s : State} (id : Index) (freq : Freq) (he : s.err = 0)
    (hl : s.queue.length = s.cfg.queueCap) :
    exec (.qpush id freq) s = .next (faulted .queueFull s) :=
  (guarded_run he rfl).trans (if_pos hl)

theorem exec_qpush_push {s : State} (id : Index) (freq : Freq) (he : s.err = 0)
    (hl : s.queue.length ≠ s.cfg.queueCap) :
    exec (.qpush id freq) s = .next (respond { }
      { s with queue := push s.queue ⟨queueId s.cfg id, queueFreq s.cfg freq⟩ }) :=
  (guarded_run he rfl).trans (if_neg hl)

/-- Settles O6: Push splits the sorted queue at the place of the kept item, which has the low bits of
the two operands. -/
theorem queueOperandsKeepTheirLowBits : Obligations.QueueOperandsKeepTheirLowBits := by
  intro s w h ho hz
  have hd := decode_qpush s.cfg ho hz
  refine ⟨hd, fun he => ?_, fun he hl => ?_, fun he hl => ?_⟩
  · exact (runWord_ok hd).trans (exec_faulted he nofun nofun)
  · exact (runWord_ok hd).trans (exec_qpush_full _ _ he hl)
  · obtain ⟨hlo, hhi⟩ := take_pushPosition h.queue_sorted (queueFreq s.cfg (fieldB w))
    exact ⟨_, _, ⟨queueId s.cfg (fieldA w), queueFreq s.cfg (fieldB w)⟩,
      (List.take_append_drop _ _).symm, queueId_toNat h.cfg _, queueFreq_toNat h.cfg _, hlo, hhi,
      (runWord_ok hd).trans (exec_qpush_push _ _ he hl)⟩

/-! ## The outcomes of a word (R58) -/

/-- The words that are well formed by their fields are those that decode. -/
theorem wordWellFormed_iff (c : Config) (w : Word) :
    WordWellFormed c w ↔ ∃ i, decode c w = .ok i := by
  simp only [decode_ok_iff_fields]
  constructor
  · rintro ⟨hz, ⟨ho, ha, hb⟩ | ⟨ho, ha, hb⟩ | ⟨ho, ha, hb⟩ | ⟨ho, ha, hb⟩ | ⟨ho, ha, hb⟩ | ho⟩
    · simp only [List.mem_cons, List.not_mem_nil, or_false] at ho
      rcases ho with ho | ho | ho | ho | ho | ho
      · exact ⟨.reset, hz, ho, ha, hb, rfl⟩
      · exact ⟨.qpop, hz, ho, ha, hb, rfl⟩
      · exact ⟨.qempty, hz, ho, ha, hb, rfl⟩
      · exact ⟨.build, hz, ho, ha, hb, rfl⟩
      · exact ⟨.flush, hz, ho, ha, hb, rfl⟩
      · exact ⟨.bsize, hz, ho, ha, hb, rfl⟩
    · exact ⟨.rdsr (fieldA w), hz, ho, rfl, hb, statusNumberOk_iff.2 ha⟩
    · simp only [List.mem_cons, List.not_mem_nil, or_false] at ho
      rcases ho with ho | ho | ho
      · exact ⟨.acc (fieldA w), hz, ho, rfl, hb, symbolOk_iff.2 ha⟩
      · exact ⟨.hrd (fieldA w), hz, ho, rfl, hb, symbolOk_iff.2 ha⟩
      · exact ⟨.path (fieldA w), hz, ho, rfl, hb, symbolOk_iff.2 ha⟩
    · exact ⟨.nrd (fieldA w), hz, ho, rfl, hb, nodeOk_iff.2 ha⟩
    · exact ⟨.abit (fieldA w), hz, ho, rfl, hb, bitOk_iff.2 ha⟩
    · exact ⟨.qpush (fieldA w) (fieldB w), hz, ho, rfl, rfl, rfl⟩
  · rintro ⟨i, hz, ho, ha, hb, hw⟩
    rw [WordWellFormed, ho, ha, hb]
    refine ⟨hz, ?_⟩
    cases i with
    | reset | qpop | qempty | build | flush | bsize => exact .inl ⟨by decide, rfl, rfl⟩
    | rdsr => exact .inr (.inl ⟨rfl, statusNumberOk_iff.1 hw, rfl⟩)
    | acc | hrd | path =>
      exact .inr (.inr (.inl ⟨by simp [Instr.opcode, Opcode.number], symbolOk_iff.1 hw, rfl⟩))
    | nrd => exact .inr (.inr (.inr (.inl ⟨rfl, nodeOk_iff.1 hw, rfl⟩)))
    | abit => exact .inr (.inr (.inr (.inr (.inl ⟨rfl, bitOk_iff.1 hw, rfl⟩))))
    | qpush => exact .inr (.inr (.inr (.inr (.inr rfl))))

/-- A well-formed word decodes to a command of the opcode that it names. -/
theorem exists_decode_of_wellFormed {c : Config} {w : Word} {o : Opcode} (h : WordWellFormed c w)
    (ho : fieldOp w = o.number) : ∃ i, decode c w = .ok i ∧ i.opcode = o := by
  obtain ⟨i, hi⟩ := (wordWellFormed_iff c w).1 h
  obtain ⟨-, hop, -⟩ := decode_ok_iff_fields.1 hi
  exact ⟨i, hi, Opcode.number_inj.1 (hop.symm.trans ho)⟩

/-- A well-formed word of opcode 0x01 is RESET. -/
theorem decode_of_wellFormed_reset {c : Config} {w : Word} (h : WordWellFormed c w)
    (ho : fieldOp w = 0x01) : decode c w = .ok .reset := by
  obtain ⟨i, hi, hop⟩ := exists_decode_of_wellFormed (o := .reset) h ho
  rw [hi, Instr.eq_reset_of_opcode hop]

/-- A well-formed word of opcode 0x02 is RDSR of its operand field. -/
theorem decode_of_wellFormed_rdsr {c : Config} {w : Word} (h : WordWellFormed c w)
    (ho : fieldOp w = 0x02) : decode c w = .ok (.rdsr (fieldA w)) := by
  obtain ⟨i, hi, hop⟩ := exists_decode_of_wellFormed (o := .rdsr) h ho
  obtain ⟨-, -, ha, -⟩ := decode_ok_iff_fields.1 hi
  rw [hi, ha, ← Instr.eq_rdsr_of_opcode hop]

theorem illegal_of_err_ne_zero {s : State} (he : s.err ≠ 0) :
    illegal s = .next (refusedState s) :=
  (illegal_cases s).elim And.right fun h => absurd h.1 he

theorem illegal_of_err_eq_zero {s : State} (he : s.err = 0) :
    illegal s = .next (faulted .illegalCommand s) :=
  (illegal_cases s).elim (fun h => absurd he h.1) And.right

/-- A word that does not decode is illegal, and by its fields it is ill formed. -/
theorem runWord_of_not_wellFormed {s : State} {w : Word} (h : ¬ WordWellFormed s.cfg w) :
    runWord w s = illegal s :=
  runWord_error fun i hi => h ((wordWellFormed_iff s.cfg w).2 ⟨i, hi⟩)

/-- In the faulted state every word is refused but a well-formed RESET or RDSR (R140). -/
theorem runWord_refused {s : State} {w : Word} (he : s.err ≠ 0)
    (h : ¬ (WordWellFormed s.cfg w ∧ (fieldOp w = 0x01 ∨ fieldOp w = 0x02))) :
    runWord w s = .next (refusedState s) := by
  by_cases hwf : WordWellFormed s.cfg w
  · obtain ⟨i, hi⟩ := (wordWellFormed_iff s.cfg w).1 hwf
    obtain ⟨-, ho, -⟩ := decode_ok_iff_fields.1 hi
    refine (runWord_ok hi).trans (exec_faulted he ?_ ?_)
    · rintro rfl
      exact absurd ⟨hwf, .inl ho⟩ h
    · rintro n rfl
      exact absurd ⟨hwf, .inr ho⟩ h
  · rw [runWord_of_not_wellFormed hwf, illegal_of_err_ne_zero he]

/-- Settles O8: the step handles the word in the state without it; a word is well formed by its fields
exactly when it decodes. -/
theorem stepFollowsTheDecodeSkeleton : Obligations.StepFollowsTheDecodeSkeleton := by
  intro s w rest hc hp _
  have hstep : step s = runWord w { s with pending := rest } := step_event hc hp
  rw [hstep]
  refine ⟨fun _ hwf ho => ?_, fun _ hwf ho => ?_, fun he h => ?_, fun he h => ?_, fun _ hwf => ?_⟩
  · exact runWord_ok (decode_of_wellFormed_reset hwf ho)
  · exact runWord_ok (decode_of_wellFormed_rdsr hwf ho)
  · exact runWord_refused (s := { s with pending := rest }) he h
  · rw [runWord_of_not_wellFormed (s := { s with pending := rest }) h]
    exact illegal_of_err_eq_zero he
  · obtain ⟨i, hi⟩ := (wordWellFormed_iff s.cfg w).1 hwf
    exact ⟨i, hi, runWord_ok hi⟩

end Sys2Proof.Machine
end

section
/-!
PROOFS. The family 40_histogram.md: ACC counts one symbol or faults (R70), HRD reads one count (R71),
and between two resets no count goes down (R72).
-/

namespace Sys2Proof.Machine

/-! ## The words of the commands with a symbol operand (R70, R71) -/

/-- An ill-formed word with no fault latched raises IllegalCommand. -/
theorem raisesIllegal_of_not_wellFormed {s : State} {w : Word} (he : s.err = 0)
    (h : ¬ WordWellFormed s.cfg w) : RaisesIllegal s w :=
  (runWord_of_not_wellFormed h).trans (illegal_of_err_eq_zero he)

/-- A well-formed word of ACC, HRD or PATH has `z` = 0, `b` = 0 and a symbol in `a`. -/
theorem fields_of_wellFormed_symbolWord {c : Config} {w : Word} (h : WordWellFormed c w)
    (ho : fieldOp w ∈ [0x10, 0x11, 0x40]) :
    fieldZ w = 0 ∧ fieldB w = 0 ∧ (fieldA w).toNat < c.n := by
  obtain ⟨i, hi⟩ := (wordWellFormed_iff c w).1 h
  obtain ⟨hz, hop, ha, hb, hw⟩ := decode_ok_iff_fields.1 hi
  rw [hop] at ho
  cases i with
  | acc | hrd | path => exact ⟨hz, hb, ha ▸ symbolOk_iff.1 hw⟩
  | _ => exact absurd ho (by simp [Instr.opcode, Opcode.number])

/-- A word of ACC, HRD or PATH that breaks one of these conditions is illegal. -/
theorem raisesIllegal_of_symbolWord {s : State} {w : Word} (he : s.err = 0)
    (ho : fieldOp w ∈ [0x10, 0x11, 0x40])
    (hbad : fieldZ w ≠ 0 ∨ fieldB w ≠ 0 ∨ s.cfg.n ≤ (fieldA w).toNat) : RaisesIllegal s w := by
  refine raisesIllegal_of_not_wellFormed he fun hwf => ?_
  obtain ⟨hz, hb, ha⟩ := fields_of_wellFormed_symbolWord hwf ho
  exact hbad.elim (· hz) (Or.elim · (· hb) (Nat.not_le.2 ha))

/-! ## What ACC and HRD answer (R70, R71) -/

theorem exec_acc_overflow {s : State} {sym : Index} (he : s.err = 0) (hs : sym.toNat < s.cfg.n)
    (ht : s.total.toNat = s.cfg.freqMax) :
    exec (.acc sym) s = .next (faulted .freqOverflow s) :=
  (guarded_run he (symbolOk_iff.2 hs)).trans (if_pos ht)

theorem exec_acc_accumulate {s : State} {sym : Index} (he : s.err = 0) (hs : sym.toNat < s.cfg.n)
    (ht : s.total.toNat ≠ s.cfg.freqMax) :
    exec (.acc sym) s = .next (respond { } (accumulate sym.toNat s)) :=
  (guarded_run he (symbolOk_iff.2 hs)).trans (if_neg ht)

theorem exec_hrd {s : State} {sym : Index} (he : s.err = 0) (hs : sym.toNat < s.cfg.n) :
    exec (.hrd sym) s = .next (respond { d := histGet s sym.toNat } s) :=
  guarded_run he (symbolOk_iff.2 hs)

/-- Counting changes no flag (R70). -/
theorem statusWord_accumulate (i : Nat) (s : State) :
    statusWord (accumulate i s) = statusWord s := rfl

/-- Settles O23: below its largest value TOTAL bounds every count, so neither TOTAL nor the symbol's
count wraps when it goes up by one. -/
theorem accCountsOneSymbol : Obligations.AccCountsOneSymbol := by
  intro s h he
  refine ⟨fun w ho hz hb ha => ?_, fun w ho hbad => ?_, fun sym hs ht => ?_, fun sym hs ht => ?_⟩
  · exact decode_ok_iff_fields.2 ⟨hz, ho, rfl, hb, symbolOk_iff.2 ha⟩
  · exact raisesIllegal_of_symbolWord he (by simp [ho]) hbad
  · exact exec_acc_overflow he hs ht
  · obtain ⟨hcount, htotal⟩ := h.accumulate_counts ht sym.toNat
    exact ⟨_, exec_acc_accumulate he hs ht, rfl, rfl, htotal, hcount,
      statusWord_accumulate sym.toNat s⟩

/-- Settles O24: HRD of a symbol runs in every state without a fault. -/
theorem hrdReadsTheCount : Obligations.HrdReadsTheCount := by
  intro s _ he
  refine ⟨fun w ho hz hb ha => ?_, fun w ho hbad => ?_, fun sym hs => ?_⟩
  · exact decode_ok_iff_fields.2 ⟨hz, ho, rfl, hb, symbolOk_iff.2 ha⟩
  · exact raisesIllegal_of_symbolWord he (by simp [ho]) hbad
  · exact exec_hrd he hs

/-! ## The histogram between two resets (R72) -/

theorem histGet_of_hist_eq {s t : State} (h : t.hist = s.hist) (k : Nat) :
    histGet t k = histGet s k := by
  rw [histGet_eq, histGet_eq, h]

/-- A command but RESET leaves the histogram as it was, or it is ACC and counts its symbol. -/
theorem exec_hist_eq_or_acc {i : Instr} {s t : State} (hi : i ≠ .reset)
    (hx : exec i s = .next t) :
    t.hist = s.hist ∨ ∃ sym, i = .acc sym ∧ s.total.toNat ≠ s.cfg.freqMax ∧
      t = respond { } (accumulate sym.toNat s) := by
  rcases (exec_writesOnlyItsStores hx).hist with hr | ⟨sym, rfl⟩ | ⟨heq, -⟩
  · exact absurd hr hi
  · rcases exec_cases hx with ⟨-, -, rfl⟩ | ⟨-, -, rfl⟩ | ⟨-, -, k, -, rfl⟩ | ⟨-, -, ht, rfl⟩
    · exact .inl rfl
    · exact .inl rfl
    · exact .inl rfl
    · exact .inr ⟨sym, rfl, ht, rfl⟩
  · exact .inl heq

theorem illegal_hist {s t : State} (hx : illegal s = .next t) : t.hist = s.hist := by
  rcases illegal_cases s with ⟨-, hi⟩ | ⟨-, hi⟩
  · cases hi.symm.trans hx; rfl
  · cases hi.symm.trans hx; rfl

/-- A step that is no reset changes no count, or it is ACC of a symbol and counts it. -/
theorem step_histGet_eq_or_acc {s t : State} (h : Inv s) (hx : step s = .next t)
    (hr : ¬ NextIsReset s) :
    (∀ k, histGet t k = histGet s k) ∨ ∃ sym, NextIs s (.acc sym) ∧
      ∀ k, (histGet t k).toNat = (histGet s k).toNat + if k = sym.toNat then 1 else 0 := by
  obtain ⟨-, hcases⟩ := step_cases hx
  rcases hcases with ⟨-, rfl⟩ | ⟨rest, hp, -⟩ | ⟨w, rest, hp, ⟨i, hd, hi⟩ | ⟨-, hi⟩⟩
  · exact .inl fun _ => rfl
  · exact absurd (.inl (by rw [hp]; rfl)) hr
  · have hhead : s.pending.head? = some (.command w) := by rw [hp]; rfl
    have hne : i ≠ .reset := by
      rintro rfl
      exact hr (.inr ⟨w, hhead, hd⟩)
    rcases exec_hist_eq_or_acc hne hi with heq | ⟨sym, rfl, ht, rfl⟩
    · exact .inl (histGet_of_hist_eq heq)
    · exact .inr ⟨sym, ⟨w, hhead, hd⟩, ((h.pending rest).accumulate_counts ht sym.toNat).1⟩
  · exact .inl (histGet_of_hist_eq (illegal_hist (s := { s with pending := rest }) hi))

/-- A step that is a reset, by the signal or by the command, leaves the histogram empty. -/
theorem step_hist_of_reset {s t : State} (hx : step s = .next t) (hr : NextIsReset s) :
    t.hist = [] := by
  obtain ⟨hc, -⟩ := step_cases hx
  rcases hr with hhead | ⟨w, hhead, hd⟩
  · obtain ⟨rest, hp⟩ := List.head?_eq_some_iff.1 hhead
    cases (step_event hc hp).symm.trans hx
    rfl
  · obtain ⟨rest, hp⟩ := List.head?_eq_some_iff.1 hhead
    have hrun : exec .reset { s with pending := rest } = .next t :=
      (runWord_ok (s := { s with pending := rest }) hd).symm.trans
        ((step_event hc hp).symm.trans hx)
    cases hrun
    rfl

/-- Settles O18: a step that is no reset leaves the histogram or adds one to one count; a reset
empties it. -/
theorem histogramIsMonotone : Obligations.HistogramIsMonotone := by
  intro s t h hx
  refine ⟨fun hr k => ?_, step_histGet_eq_or_acc h hx, fun hr k => ?_⟩
  · rcases step_histGet_eq_or_acc h hx hr with heq | ⟨sym, -, hcount⟩
    · rw [heq k]
    · rw [hcount k]
      exact Nat.le_add_right _ _
  · rw [histGet_eq, step_hist_of_reset hx hr, Store.get_nil]

end Sys2Proof.Machine
end

section
/-!
PROOFS. The family 41_queue.md: QPUSH inserts one item or faults (R75, R78), QPOP removes the head or
faults (R76, R79), QEMPTY tells emptiness (R77, R80), and the queue stays sorted and stable (R81).
-/

namespace Sys2Proof.Machine

/-! ## The words of the commands without operands (R79, R80) -/

/-- A well-formed word of a command without operands has `z` = 0, `a` = 0 and `b` = 0. -/
theorem fields_of_wellFormed_plainWord {c : Config} {w : Word} (h : WordWellFormed c w)
    (ho : fieldOp w ∈ [0x01, 0x21, 0x22, 0x30, 0x51, 0x52]) :
    fieldZ w = 0 ∧ fieldA w = 0 ∧ fieldB w = 0 := by
  obtain ⟨i, hi⟩ := (wordWellFormed_iff c w).1 h
  obtain ⟨hz, hop, ha, hb, -⟩ := decode_ok_iff_fields.1 hi
  rw [hop] at ho
  cases i with
  | reset | qpop | qempty | build | flush | bsize => exact ⟨hz, ha, hb⟩
  | _ => exact absurd ho (by simp [Instr.opcode, Opcode.number])

/-- A word of a command without operands that breaks one of these conditions is illegal. -/
theorem raisesIllegal_of_plainWord {s : State} {w : Word} (he : s.err = 0)
    (ho : fieldOp w ∈ [0x01, 0x21, 0x22, 0x30, 0x51, 0x52])
    (hbad : fieldZ w ≠ 0 ∨ fieldA w ≠ 0 ∨ fieldB w ≠ 0) : RaisesIllegal s w := by
  refine raisesIllegal_of_not_wellFormed he fun hwf => ?_
  obtain ⟨hz, ha, hb⟩ := fields_of_wellFormed_plainWord hwf ho
  exact hbad.elim (· hz) (Or.elim · (· ha) (· hb))

/-! ## The flag QEMPTY (R34) -/

theorem flagQEmpty_eq_true (s : State) : flagQEmpty s = true ↔ s.queue = [] := by
  simp [flagQEmpty]

theorem flagQEmpty_eq_false (s : State) : flagQEmpty s = false ↔ s.queue ≠ [] := by
  simp [flagQEmpty]

/-! ## What QPUSH, QPOP and QEMPTY answer (R78 to R80) -/

/-- Operands that fit the configured widths are pushed as they are. -/
theorem exec_qpush_of_fits {s : State} {id : Index} {freq : Freq} (hc : s.cfg.WellFormed)
    (he : s.err = 0) (hid : id.toNat < 2 ^ s.cfg.idxW) (hfreq : freq.toNat < 2 ^ s.cfg.freqW)
    (hl : s.queue.length ≠ s.cfg.queueCap) :
    exec (.qpush id freq) s =
      .next (respond { } { s with queue := push s.queue ⟨id, freq⟩ }) := by
  rw [exec_qpush_push id freq he hl, queueId_of_lt hc hid, queueFreq_of_lt hc hfreq]

theorem exec_qpop_empty {s : State} (he : s.err = 0) (hq : s.queue = []) :
    exec .qpop s = .next (faulted .emptyQueue s) := by
  rw [exec, execQpop, guarded_run he rfl, pop_eq_none.2 hq, raise_eq]

theorem exec_qpop_pop {s : State} {it : Item} {rest : List Item} (he : s.err = 0)
    (hq : s.queue = it :: rest) :
    exec .qpop s = .next (respond { id := it.id, d := it.freq } { s with queue := rest }) := by
  rw [exec, execQpop, guarded_run he rfl, pop_eq_some.2 hq]

theorem exec_qempty {s : State} (he : s.err = 0) :
    exec .qempty s = .next (respond { d := if s.queue.length = 0 then 1 else 0 } s) := by
  rw [exec, execQempty, guarded_run he rfl]
  simp only [isEmpty, decide_eq_true_eq]

/-! ## The statements -/

/-- Settles O25: Push splits the sorted queue at the item's place, and a queue with an item in it is not
empty. -/
theorem qpushInsertsOneItem : Obligations.QpushInsertsOneItem := by
  intro s id freq h he hid hfreq
  refine ⟨fun w ho hz ha hb => ?_, fun w _ hz => ?_, fun hl => ?_, fun hl => ?_⟩
  · rw [decode_qpush s.cfg ho hz, ha, hb]
  · exact raisesIllegal_of_not_wellFormed he fun hwf => hz hwf.1
  · exact exec_qpush_full id freq he hl
  · obtain ⟨hlo, hhi⟩ := take_pushPosition h.queue_sorted freq
    exact ⟨_, _, _, (List.take_append_drop _ _).symm, hlo, hhi,
      exec_qpush_of_fits h.cfg he hid hfreq hl, rfl,
      (flagQEmpty_eq_false _).2 (List.append_ne_nil_of_right_ne_nil _ (List.cons_ne_nil _ _))⟩

/-- Settles O26: by the queue, which is empty or has a head. -/
theorem qpopRemovesTheHead : Obligations.QpopRemovesTheHead := by
  intro s _ he
  refine ⟨decode_ok_iff_encode.2 ⟨rfl, rfl⟩, fun w ho hbad => ?_, exec_qpop_empty he,
    fun id freq rest hq => ?_⟩
  · exact raisesIllegal_of_plainWord he (by simp [ho]) hbad
  · exact ⟨exec_qpop_pop he hq, flagQEmpty_eq_true _⟩

/-- Settles O27: QEMPTY runs in every state without a fault. -/
theorem qemptyTellsEmptiness : Obligations.QemptyTellsEmptiness := by
  intro s _ he
  refine ⟨decode_ok_iff_encode.2 ⟨rfl, rfl⟩, fun w ho hbad => ?_, exec_qempty he⟩
  exact raisesIllegal_of_plainWord he (by simp [ho]) hbad

/-- Settles O28: Push inserts at the one place that keeps the order and comes last among equals; Pop
takes the head, which a sorted queue has below the rest. -/
theorem queueStaysSortedAndStable : Obligations.QueueStaysSortedAndStable := by
  intro q it h
  refine ⟨push_sorted h it, push_stable h it, fun x rest hpop => ?_⟩
  have hq : q = x :: rest := pop_eq_some.1 hpop
  obtain ⟨hhead, hrest⟩ := List.pairwise_cons.1 (hq ▸ h)
  exact ⟨hq, hrest, hhead⟩

end Sys2Proof.Machine
end

section
/-!
PROOFS. The family 42_tree_builder.md: BUILD completes or faults (R87, R92), what it leaves is a full
tree with exact frequencies (R88 to R90, R93), made greedily (R82, R85), and a function of the histogram
alone (R94); NRD reads one node (R86).
-/

namespace Sys2Proof.Machine

/-! ## The active leaves (00_scope.md R18) -/

theorem activeLeaves_ne_nil_iff (s : State) :
    activeLeaves s ≠ [] ↔ ∃ i, i < s.cfg.n ∧ histGet s i ≠ 0 := by
  simp only [ne_eq, List.eq_nil_iff_forall_not_mem, mem_activeLeaves, not_forall, not_not]

theorem activeLeaves_eq_nil {s : State} (h : ∀ i, i < s.cfg.n → histGet s i = 0) :
    activeLeaves s = [] := by
  by_contra ha
  obtain ⟨i, hi, hne⟩ := (activeLeaves_ne_nil_iff s).1 ha
  exact hne (h i hi)

theorem activeLeaves_length_le (s : State) : (activeLeaves s).length ≤ s.cfg.n :=
  (List.length_filter_le _ _).trans_eq List.length_range

/-! ## What BUILD answers (R85) -/

/-- What BUILD leaves when its merge loop ends with this root and this work (R85). -/
def afterBuild (s : State) (root : Index) (w : Work) : State :=
  respond { } { s with
    arena := w.arena
    queue := w.queue
    root := root
    nleaf := s.cfg.toIndex (activeLeaves s).length
    nnext := s.cfg.toIndex w.next }

theorem exec_build_emptyAlphabet {s : State} (he : s.err = 0) (ha : activeLeaves s = []) :
    exec .build s = .next (faulted .emptyAlphabet s) :=
  (guarded_run he rfl).trans (if_pos (List.length_eq_zero_iff.2 ha))

theorem exec_build_of_mergeLoop {s : State} {root : Index} {w : Work} (he : s.err = 0)
    (ha : activeLeaves s ≠ [])
    (hm : mergeLoop s.cfg (activeLeaves s).length (addLeaves s) = some (root, w)) :
    exec .build s = .next (afterBuild s root w) := by
  have hlen : (activeLeaves s).length ≠ 0 := fun h => ha (List.length_eq_zero_iff.1 h)
  refine (guarded_run he rfl).trans ((if_neg hlen).trans ?_)
  rw [hm]
  rfl

/-- With an active leaf a BUILD that answers has run its loop to the end. -/
theorem eq_afterBuild_of_exec {s t : State} (he : s.err = 0) (ha : activeLeaves s ≠ [])
    (hx : exec .build s = .next t) :
    ∃ root w, mergeLoop s.cfg (activeLeaves s).length (addLeaves s) = some (root, w) ∧
      t = afterBuild s root w := by
  rcases exec_body (i := .build) he rfl hx with ⟨k, ⟨hnil, -⟩, -⟩ | ⟨-, hrun⟩
  · exact absurd hnil ha
  · exact hrun

/-! ## The tree (R88 to R90, R93) -/

theorem Built.cfg_eq {s t : State} (hb : Built s t) : t.cfg = s.cfg :=
  (congrArg State.cfg hb.frame :)

/-- The root holds TOTAL: its frequency is the sum of the leaves', which are the counts. -/
theorem Built.root_freq_eq_total {s t : State} (h : Inv s) (hb : Built s t) :
    nodeFreq s.cfg t.arena t.root.toNat = s.total.toNat :=
  calc nodeFreq s.cfg t.arena t.root.toNat = leafSum s.cfg t.arena := hb.tree.root_freq
    _ = histSum s := congrArg List.sum
      (List.map_congr_left fun i hi => hb.leaf_freq i (List.mem_range.1 hi))
    _ = s.total.toNat := h.total_eq.symm

/-- A leaf without a count keeps the reset value. -/
theorem Built.arenaGet_of_inactive {s t : State} (hb : Built s t) {i : Nat} (hi : i < s.cfg.n)
    (h0 : histGet s i = 0) : arenaGet t i = nodeReset s.cfg := by
  have habsent : ¬ Materialised s.cfg t.arena i := not_not.2 (by rw [hb.leaf_freq i hi, h0]; rfl)
  rw [arenaGet_eq, hb.cfg_eq]
  exact hb.tree.absent i (.inl habsent)

theorem Built.flagTree_eq_true {s t : State} (h : Inv s) (hb : Built s t) : flagTree t = true :=
  decide_eq_true (hb.cfg_eq ▸ root_ne_none h.cfg hb.tree)

/-- Settles O30: the loop's invariant ends in a tree of the histogram's leaves, whose sum is TOTAL. -/
theorem buildMakesATree : Obligations.BuildMakesATree := by
  intro s h he hactive
  obtain ⟨t, hx, hb⟩ := execBuild_built h he ((activeLeaves_ne_nil_iff s).2 hactive)
  exact ⟨t, hx, hb.tree, hb.leaf_freq, fun i => hb.arenaGet_of_inactive, hb.root_freq_eq_total h,
    hb.flagTree_eq_true h⟩

/-- Settles O31: the loop's invariant has the greedy choice at every internal node, since the queue is
ordered by frequency and then by id, and a node without a parent waits in it. -/
theorem buildMergesTheTwoFirst : Obligations.BuildMergesTheTwoFirst := by
  intro s h he hactive
  obtain ⟨t, hx, hb⟩ := execBuild_built h he ((activeLeaves_ne_nil_iff s).2 hactive)
  exact ⟨t, hx, hb.greedy⟩

/-! ## Completion (R87, R92) -/

/-- Settles O29: each of the L - 1 merges makes the queue of L leaves one shorter, so the loop ends; L
and the last index are node indices, which fit their registers. -/
theorem buildCompletes : Obligations.BuildCompletes := by
  intro s hc he
  refine ⟨decode_ok_iff_encode.2 ⟨rfl, rfl⟩, fun w ho hbad => ?_, fun h0 => ?_, fun hactive => ?_⟩
  · exact raisesIllegal_of_plainWord he (by simp [ho]) hbad
  · exact exec_build_emptyAlphabet he (activeLeaves_eq_nil h0)
  · have ha := (activeLeaves_ne_nil_iff s).2 hactive
    have hpos := List.length_pos_iff.2 ha
    have hle := activeLeaves_length_le s
    have hfits : ∀ k, k < 2 * s.cfg.n → (s.cfg.toIndex k).toNat = k := fun k hk =>
      s.cfg.toIndex_toNat hc (s.cfg.index_lt hc hk)
    obtain ⟨root, w, hm, hqueue, hnext⟩ := build_loop_ends s ha
    refine ⟨afterBuild s root w, _, rfl, exec_build_of_mergeLoop he ha hm, rfl, rfl, hqueue,
      hfits _ (by omega), ?_⟩
    calc (s.cfg.toIndex w.next).toNat = w.next := hfits _ (by omega)
      _ = s.cfg.n + ((activeLeaves s).length - 1) := by omega

/-! ## BUILD reads the configuration and the histogram only (R94) -/

theorem activeLeaves_congr {s s' : State} (hc : s.cfg = s'.cfg)
    (hh : ∀ i, i < s.cfg.n → histGet s i = histGet s' i) : activeLeaves s = activeLeaves s' := by
  unfold activeLeaves
  rw [← hc]
  exact List.filter_congr fun i hi => by rw [hh i (List.mem_range.1 hi)]

theorem addLeaf_congr {s s' : State} (hc : s.cfg = s'.cfg) {i : Nat}
    (hi : histGet s i = histGet s' i) (w : Work) : addLeaf s w i = addLeaf s' w i := by
  rw [addLeaf, addLeaf, hc, hi]

theorem addLeaves_congr {s s' : State} (hc : s.cfg = s'.cfg)
    (hh : ∀ i, i < s.cfg.n → histGet s i = histGet s' i) : addLeaves s = addLeaves s' := by
  rw [addLeaves, addLeaves, ← activeLeaves_congr hc hh, hc]
  exact List.foldl_ext _ _ _ fun w i hi => addLeaf_congr hc (hh i (mem_activeLeaves.1 hi).1) w

/-- Settles O32: both loops start from the same leaves, so they end with the same root and work. -/
theorem buildDependsOnTheHistogramOnly : Obligations.BuildDependsOnTheHistogramOnly := by
  intro s s' t t' hc he he' hh hactive hx hx'
  have hleaves := activeLeaves_congr hc hh
  have ha := (activeLeaves_ne_nil_iff s).2 hactive
  obtain ⟨root, w, hm, rfl⟩ := eq_afterBuild_of_exec he ha hx
  obtain ⟨root', w', hm', rfl⟩ := eq_afterBuild_of_exec he' (hleaves ▸ ha) hx'
  rw [← hc, ← hleaves, ← addLeaves_congr hc hh] at hm'
  cases hm.symm.trans hm'
  simp [afterBuild, arenaGet_eq, hc, hleaves]

/-! ## NRD (R86) -/

/-- A well-formed word of NRD has `z` = 0, `b` = 0 and a node index in `a`. -/
theorem fields_of_wellFormed_nrdWord {c : Config} {w : Word} (h : WordWellFormed c w)
    (ho : fieldOp w = 0x31) : fieldZ w = 0 ∧ fieldB w = 0 ∧ (fieldA w).toNat < 2 * c.n := by
  obtain ⟨i, hi, hop⟩ := exists_decode_of_wellFormed (o := .nrd) h ho
  obtain ⟨hz, -, ha, hb, hw⟩ := decode_ok_iff_fields.1 hi
  cases i with
  | nrd => exact ⟨hz, hb, ha ▸ nodeOk_iff.1 hw⟩
  | _ => exact nomatch hop

/-- Settles O33: NRD of a node index runs in every state without a fault. -/
theorem nrdReadsOneNode : Obligations.NrdReadsOneNode := by
  intro s _ he
  refine ⟨fun w ho hz hb ha => ?_, fun w ho hbad => ?_, fun idx nd hidx hnd => ?_⟩
  · exact decode_ok_iff_fields.2 ⟨hz, ho, rfl, hb, nodeOk_iff.2 ha⟩
  · refine raisesIllegal_of_not_wellFormed he fun hwf => ?_
    obtain ⟨hz, hb, ha⟩ := fields_of_wellFormed_nrdWord hwf ho
    exact hbad.elim (· hz) (Or.elim · (· hb) (Nat.not_le.2 ha))
  · subst hnd
    exact guarded_run he (nodeOk_iff.2 hidx)

end Sys2Proof.Machine
end

section
/-!
PROOFS. The family 43_code_deriver.md: PATH answers the walk to the root reversed or faults (R100), its
codes have the stated lengths (R101, R104), none begins another (R102), they meet Kraft's equality
(R103), and they walk back to their symbols (R105).
-/

namespace Sys2Proof.Machine

/-! ## What PATH answers (R100) -/

/-- PATH of the symbol answers the code: it is a symbol of the tree, and the code is its code. -/
structure HasCode (s : State) (sym : Index) (code : List Bool) : Prop where
  symbol : sym.toNat < s.cfg.n
  active : (arenaGet s sym.toNat).freq ≠ 0
  eq : codeOf s sym = .ok code

theorem exec_path_symbolNotInTree {s : State} {sym : Index} (he : s.err = 0)
    (hs : sym.toNat < s.cfg.n) (hf : (arenaGet s sym.toNat).freq = 0) :
    exec (.path sym) s = .next (faulted .symbolNotInTree s) :=
  (guarded_run he (symbolOk_iff.2 hs)).trans (if_pos hf)

theorem HasCode.exec_path {s : State} {sym : Index} {code : List Bool} (h : HasCode s sym code)
    (he : s.err = 0) :
    exec (.path sym) s = .next (respond { d := BitVec.ofNat 32 code.length, code := code } s) :=
  exec_of_effect_reading (i := .path sym) trivial (symbolOk_iff.2 h.symbol) (.inl he)
    ⟨h.active, code, h.eq, rfl⟩

/-- A PATH that leaves ERR at 0 has answered the symbol's code. -/
theorem hasCode_of_exec_path {s : State} {sym : Index} {d : Data} {code : List Bool}
    (he : s.err = 0)
    (hx : exec (.path sym) s = .next { s with response := some { d := d, code := code } }) :
    HasCode s sym code := by
  obtain ⟨hw, hf, code', hcode, ht⟩ := effect_of_err_eq_zero he hx he
  have hresponse := Option.some.inj (congrArg State.response ht)
  have hcc : code = code' := congrArg Response.code hresponse
  exact ⟨symbolOk_iff.1 hw, hf, hcc ▸ hcode⟩

/-- The walk is empty exactly at a node with no parent. -/
theorem Climbs.eq_nil_iff {s : State} {cur : Index} {l : List Bool} (h : Climbs s cur l) :
    l = [] ↔ (arenaGet s cur.toNat).parent = s.cfg.none := by
  cases h with
  | root _ hr => exact iff_of_true rfl hr
  | up _ p rest hp hne => exact iff_of_false (List.cons_ne_nil _ _) (hp ▸ hne)

/-- The code is the walk reversed, or the one bit 0 when the walk is empty (R100, R104). -/
theorem Climbs.codeOf_eq {s : State} {sym : Index} {acc : List Bool} (h : Climbs s sym acc)
    (hl : acc.length ≤ s.cfg.n) :
    codeOf s sym = .ok (if acc = [] then [false] else acc.reverse) := by
  unfold codeOf
  simp only [h.eq_nil_iff, (pathWalk_ok s.cfg.n sym acc).2 ⟨h, hl⟩]
  split <;> rfl

/-! ## The symbols of the tree (R93) -/

theorem materialised_iff_freq {s : State} {i : Nat} :
    Materialised s.cfg s.arena i ↔ (arenaGet s i).freq ≠ 0 :=
  not_congr (BitVec.toNat_inj (y := (0 : Freq)))

/-- A state with a node of frequency other than 0 has a tree. -/
theorem Inv.hasTree {s : State} (h : Inv s) {i : Nat} (hf : (arenaGet s i).freq ≠ 0) :
    HasTree s := by
  rcases h.tree with hn | ⟨-, ht⟩
  · exact absurd (congrArg Node.freq (hn.arena i)) hf
  · exact ht

theorem hasTree_nleaf_le {s : State} (h : HasTree s) : s.nleaf.toNat ≤ s.cfg.n := by
  rw [← h.leaf_count]
  exact (List.length_filter_le _ _).trans_eq List.length_range

/-- The root is a leaf exactly when it is the one active leaf (R104, R38 (d)). -/
theorem root_lt_iff {s : State} (h : HasTree s) :
    s.root.toNat < s.cfg.n ↔ s.nleaf.toNat = 1 := by
  refine ⟨fun hr => ?_, h.root_one⟩
  by_contra hne
  have := h.one_le
  have := h.next_eq
  have := h.root_many (by omega)
  omega

/-- An active leaf's walk is empty exactly when it is the one active leaf (R104). -/
theorem Climbs.eq_nil_iff_nleaf {s : State} (hc : s.cfg.WellFormed) (h : HasTree s) {sym : Index}
    {acc : List Bool} (hacc : Climbs s sym acc) (hm : Materialised s.cfg s.arena sym.toNat)
    (hs : sym.toNat < s.cfg.n) : acc = [] ↔ s.nleaf.toNat = 1 := by
  constructor
  · intro hnil
    rw [← root_lt_iff h, ← eq_root_of_parent hc h hm (hacc.eq_nil_iff.1 hnil)]
    exact hs
  · intro hone
    obtain ⟨l, hl, hlen, -⟩ := climbs_leaf hc h sym hm hs
    rw [hacc.unique hl, List.eq_nil_iff_length_eq_zero]
    omega

/-- Every symbol of the tree has a code: the walk of at most NLEAF - 1 steps reversed, or the one bit 0
when it is the one active leaf. -/
theorem Inv.exists_hasCode {s : State} (h : Inv s) {sym : Index} (hs : sym.toNat < s.cfg.n)
    (hf : (arenaGet s sym.toNat).freq ≠ 0) :
    ∃ acc, Climbs s sym acc ∧ acc.length ≤ s.nleaf.toNat - 1 ∧ acc.length ≤ s.cfg.n ∧
      HasCode s sym (if s.nleaf.toNat = 1 then [false] else acc.reverse) := by
  have ht := h.hasTree hf
  have hm := materialised_iff_freq.2 hf
  obtain ⟨acc, hacc, hlen, hcode⟩ := codeOf_ok h.cfg ht sym hm hs
  have hle := hasTree_nleaf_le ht
  simp only [hacc.eq_nil_iff_nleaf h.cfg ht hm hs] at hcode
  exact ⟨acc, hacc, hlen, by omega, hs, hf, hcode⟩

/-- Settles O35: the walk with fuel N is the relation, and in a tree a leaf climbs to the root in at most
NLEAF - 1 steps. -/
theorem pathReturnsTheWalkReversed : Obligations.PathReturnsTheWalkReversed := by
  intro s _ he
  refine ⟨fun w ho hz hb ha => ?_, fun w ho hbad => ?_, fun sym hs hf => ?_,
    fun sym acc hs hf hacc hl => ?_, fun h sym hs hf => ?_⟩
  · exact decode_ok_iff_fields.2 ⟨hz, ho, rfl, hb, symbolOk_iff.2 ha⟩
  · exact raisesIllegal_of_symbolWord he (by simp [ho]) hbad
  · exact exec_path_symbolNotInTree he hs hf
  · have hx := HasCode.exec_path ⟨hs, hf, hacc.codeOf_eq hl⟩ he
    refine ⟨fun hnil => ?_, fun hne => ?_⟩
    · rwa [if_pos hnil] at hx
    · rwa [if_neg hne, List.length_reverse] at hx
  · obtain ⟨acc, hacc, hlen, hle, -⟩ := h.exists_hasCode hs hf
    exact ⟨acc, hacc, hlen, hle⟩

/-- Settles O36: the leaf climbs to the root in at most NLEAF - 1 steps, and in none exactly when it is
the one active leaf. -/
theorem codesHaveTheStatedLengths : Obligations.CodesHaveTheStatedLengths := by
  intro s sym h he hs hf
  have ht := h.hasTree hf
  have hm := materialised_iff_freq.2 hf
  obtain ⟨acc, hacc, hlen, -, hcode⟩ := h.exists_hasCode hs hf
  have hnil := hacc.eq_nil_iff_nleaf h.cfg ht hm hs
  refine ⟨_, acc, hcode.exec_path he, hacc, ?_, fun hmany => ?_, fun hone => ?_⟩
  · split
    · exact le_rfl
    · next hne => exact List.length_pos_iff.2 (List.reverse_ne_nil_iff.2 (mt hnil.1 hne))
  · have := hasTree_nleaf_le ht
    rw [if_neg (by omega), List.length_reverse]
    exact ⟨hlen, by omega, rfl⟩
  · have hparent := hacc.eq_nil_iff.1 (hnil.2 hone)
    have hroot := eq_root_of_parent h.cfg ht hm hparent
    have hnext := ht.next_eq
    exact ⟨if_pos hone, (BitVec.eq_of_toNat_eq hroot).symm, hparent, by omega⟩

/-! ## Codes at the front of the bits (R102, R105) -/

/-- The walk down from the root consumes a code from the front of any bits. -/
theorem HasCode.walkSymbol_append {s : State} {sym : Index} {code : List Bool}
    (hcode : HasCode s sym code) (h : Inv s) (rest : List Bool) :
    walkSymbol s (code ++ rest) = some (sym.toNat, rest) :=
  walkSymbol_code h.cfg (h.hasTree hcode.active) sym (materialised_iff_freq.2 hcode.active)
    hcode.symbol hcode.eq rest

/-- So a code with which another begins is of the same symbol: both are told from the same bits. -/
theorem HasCode.eq_of_prefix {s : State} {sym sym' : Index} {code code' : List Bool} (h : Inv s)
    (hcode : HasCode s sym code) (hcode' : HasCode s sym' code') (hp : code <+: code') :
    sym = sym' := by
  obtain ⟨rest, rfl⟩ := hp
  have hwalk := hcode'.walkSymbol_append h []
  rw [List.append_nil, hcode.walkSymbol_append h rest] at hwalk
  exact BitVec.eq_of_toNat_eq (congrArg Prod.fst (Option.some.inj hwalk))

/-- Settles O37: a code is told from the bits that begin with it by the walk down from the root. -/
theorem codesArePrefixFree : Obligations.CodesArePrefixFree := by
  intro s sym sym' h he hne hs hf hs' hf'
  obtain ⟨acc, -, -, -, hcode⟩ := h.exists_hasCode hs hf
  obtain ⟨acc', -, -, -, hcode'⟩ := h.exists_hasCode hs' hf'
  refine ⟨_, _, hcode.exec_path he, hcode'.exec_path he, fun hp => ?_, fun hp => ?_⟩
  · exact hne (hcode.eq_of_prefix h hcode' hp)
  · exact hne.symm (hcode'.eq_of_prefix h hcode hp)

/-- The codes of a sequence of symbols walk back to the sequence, whatever bits follow them. -/
theorem walkSymbols_codes {s : State} (h : Inv s) (code : Index → List Bool) (syms : List Index)
    (hsyms : ∀ sym ∈ syms, HasCode s sym (code sym)) (rest : List Bool) :
    walkSymbols s syms.length (syms.flatMap code ++ rest) =
      some (syms.map fun sym => sym.toNat) := by
  induction syms with
  | nil => rfl
  | cons sym syms ih =>
    obtain ⟨hcode, htail⟩ := List.forall_mem_cons.1 hsyms
    rw [List.flatMap_cons, List.append_assoc, List.length_cons, walkSymbols,
      hcode.walkSymbol_append h]
    simp [ih htail]

/-- Settles O39: unpacking gives the joined codes with padding after them, and each code is consumed
from the front of the bits. -/
theorem packedCodesWalkBackToTheSymbols : Obligations.PackedCodesWalkBackToTheSymbols := by
  intro s syms code h he hx
  rw [unpack_pack]
  refine walkSymbols_codes h code syms (fun sym hmem => ?_) _
  obtain ⟨d, hd⟩ := hx sym hmem
  exact hasCode_of_exec_path he hd

/-! ## Kraft's equality (R103)

A node of depth k weighs 2^-k, so every node but the root weighs half its parent, and the two children
of an internal node weigh as much as it. Summed over the tree: all nodes but the root weigh as much as
all internal nodes, so the leaves weigh as much as the root. -/

/-- The weight of a node: 2 to the minus the number of steps of its walk to the root. -/
def nodeWeight (s : State) (i : Nat) : ℚ :=
  match pathWalk s s.cfg.n (BitVec.ofNat 16 i) with
  | .ok l => (1 / 2) ^ l.length
  | .error _ => 0

/-- The symbols of the tree, listed as the statement of R103 lists them. -/
def treeSymbols (s : State) : Finset Nat :=
  (Finset.range s.cfg.n).filter fun i => (arenaGet s i).freq ≠ 0

/-- The internal nodes of the tree. -/
def treeInternals (s : State) : Finset Nat := Finset.Ico s.cfg.n s.nnext.toNat

/-- All nodes of the tree. -/
def treeNodes (s : State) : Finset Nat := treeSymbols s ∪ treeInternals s

theorem mem_treeSymbols {s : State} {i : Nat} :
    i ∈ treeSymbols s ↔ i < s.cfg.n ∧ Materialised s.cfg s.arena i := by
  rw [treeSymbols, Finset.mem_filter, Finset.mem_range, materialised_iff_freq]

theorem mem_treeInternals {s : State} {p : Nat} :
    p ∈ treeInternals s ↔ s.cfg.n ≤ p ∧ p < s.nnext.toNat := Finset.mem_Ico

theorem disjoint_symbols_internals (s : State) : Disjoint (treeSymbols s) (treeInternals s) :=
  Finset.disjoint_left.2 fun _ hs hp =>
    absurd (mem_treeSymbols.1 hs).1 (Nat.not_lt.2 (mem_treeInternals.1 hp).1)

/-- The number of a node of the tree fits an index. -/
theorem Inv.toNat_ofNat_of_materialised {s : State} (h : Inv s) {i : Nat}
    (hm : Materialised s.cfg s.arena i) : (BitVec.ofNat 16 i).toNat = i :=
  Nat.mod_eq_of_lt ((h.lt_nnext_of_materialised hm).trans s.nnext.isLt)

/-- A walk within the fuel gives the weight. -/
theorem Climbs.nodeWeight_eq {s : State} {cur : Index} {l : List Bool} (h : Climbs s cur l)
    (hl : l.length ≤ s.cfg.n) : nodeWeight s cur.toNat = (1 / 2) ^ l.length := by
  rw [nodeWeight, BitVec.ofNat_toNat, BitVec.setWidth_eq, (pathWalk_ok _ _ _).2 ⟨h, hl⟩]

theorem nodeWeight_root {s : State} (ht : HasTree s) : nodeWeight s s.root.toNat = 1 :=
  ((Climbs.root s.root ht.root_parent).nodeWeight_eq (Nat.zero_le _)).trans (pow_zero _)

/-- A code of length k contributes the weight of its leaf, and with one active leaf 1/2 (R104). -/
theorem HasCode.half_pow_length {s : State} (h : Inv s) {sym : Index} {code : List Bool}
    (hcode : HasCode s sym code) :
    (1 / 2 : ℚ) ^ code.length =
      if s.nleaf.toNat = 1 then 1 / 2 else nodeWeight s sym.toNat := by
  obtain ⟨acc, hacc, -, hle, hcode'⟩ := h.exists_hasCode hcode.symbol hcode.active
  cases hcode.eq.symm.trans hcode'.eq
  split
  · exact pow_one _
  · rw [List.length_reverse, hacc.nodeWeight_eq hle]

theorem card_treeSymbols {s : State} (ht : HasTree s) : (treeSymbols s).card = s.nleaf.toNat :=
  calc (treeSymbols s).card
    _ = ((Finset.range s.cfg.n).filter (Materialised s.cfg s.arena)).card := by
      simp only [treeSymbols, materialised_iff_freq]
    _ = s.nleaf.toNat := ht.leaf_count

section Kraft

variable {s : State} (h : Inv s) (ht : HasTree s)

include h ht

theorem mem_treeNodes {i : Nat} : i ∈ treeNodes s ↔ Materialised s.cfg s.arena i := by
  rw [treeNodes, Finset.mem_union, mem_treeSymbols, mem_treeInternals]
  constructor
  · rintro (⟨-, hm⟩ | ⟨hlo, hhi⟩)
    · exact hm
    · exact (ht.internal i hlo hhi).1
  · intro hm
    rcases Nat.lt_or_ge i s.cfg.n with hlt | hge
    · exact .inl ⟨hlt, hm⟩
    · exact .inr ⟨hge, h.lt_nnext_of_materialised hm⟩

/-- Every node of the tree climbs to the root within the fuel of PATH. -/
theorem exists_climbs (cur : Index) (hm : Materialised s.cfg s.arena cur.toNat) :
    ∃ l, Climbs s cur l ∧ l.length ≤ s.cfg.n := by
  have hle := hasTree_nleaf_le ht
  have hnext := ht.next_eq
  rcases Nat.lt_or_ge cur.toNat s.cfg.n with hlt | hge
  · obtain ⟨l, hl, hlen, -⟩ := climbs_leaf h.cfg ht cur hm hlt
    exact ⟨l, hl, by omega⟩
  · obtain ⟨l, hl, hlen⟩ := climbs_internal h.cfg ht s.nleaf.toNat cur hm (by omega) hge
    exact ⟨l, hl, by omega⟩

/-- Every node but the root weighs half its parent. -/
theorem nodeWeight_eq_half_parent {i : Nat} (hm : Materialised s.cfg s.arena i)
    (hr : i ≠ s.root.toNat) :
    nodeWeight s i = nodeWeight s (nodeParent s.cfg s.arena i) / 2 := by
  obtain ⟨cur, rfl⟩ : ∃ cur : Index, cur.toNat = i := ⟨_, h.toNat_ofNat_of_materialised hm⟩
  obtain ⟨l, hl, hlen⟩ := exists_climbs h ht cur hm
  rw [hl.nodeWeight_eq hlen]
  cases hl with
  | root _ hp => exact absurd (eq_root_of_parent h.cfg ht hm hp) hr
  | up _ p rest hp _ _ hrest =>
    have hparent : nodeParent s.cfg s.arena cur.toNat = p.toNat := congrArg BitVec.toNat hp
    rw [hparent, hrest.nodeWeight_eq (Nat.le_of_succ_le hlen), List.length_cons, pow_succ]
    ring

/-- The nodes below an internal node are its two children (R88, R89). -/
theorem filter_parent_eq_children {p : Nat} (hp : p ∈ treeInternals s) :
    ((treeNodes s).erase s.root.toNat).filter (fun i => nodeParent s.cfg s.arena i = p) =
      {nodeLeft s.cfg s.arena p, nodeRight s.cfg s.arena p} := by
  obtain ⟨hlo, hhi⟩ := mem_treeInternals.1 hp
  obtain ⟨-, hint⟩ := ht.internal p hlo hhi
  have hne_root : ∀ i, IsChild s.cfg s.arena p i → i ≠ s.root.toNat := by
    rintro _ hi rfl
    have hnone : p = s.cfg.none.toNat :=
      hi.parent.symm.trans (congrArg BitVec.toNat ht.root_parent)
    have := s.cfg.lt_none h.cfg (hasTree_next_le h.cfg ht)
    omega
  ext i
  rw [Finset.mem_filter, Finset.mem_erase, mem_treeNodes h ht, Finset.mem_insert,
    Finset.mem_singleton]
  constructor
  · rintro ⟨⟨hr, hm⟩, rfl⟩
    exact (ht.linked i hm hr).child.imp Eq.symm Eq.symm
  · rintro (rfl | rfl)
    · exact ⟨⟨hne_root _ hint.left, hint.left.materialised⟩, hint.left.parent⟩
    · exact ⟨⟨hne_root _ hint.right, hint.right.materialised⟩, hint.right.parent⟩

/-- The nodes below an internal node weigh as much as it. -/
theorem sum_children_nodeWeight {p : Nat} (hp : p ∈ treeInternals s) :
    ∑ i ∈ ((treeNodes s).erase s.root.toNat).filter (fun i => nodeParent s.cfg s.arena i = p),
      nodeWeight s i = nodeWeight s p := by
  have hhalf : ∀ i ∈ ((treeNodes s).erase s.root.toNat).filter
      (fun i => nodeParent s.cfg s.arena i = p), nodeWeight s i = nodeWeight s p / 2 := by
    intro i hi
    obtain ⟨hi, hparent⟩ := Finset.mem_filter.1 hi
    obtain ⟨hr, hm⟩ := Finset.mem_erase.1 hi
    rw [nodeWeight_eq_half_parent h ht ((mem_treeNodes h ht).1 hm) hr, hparent]
  obtain ⟨hlo, hhi⟩ := mem_treeInternals.1 hp
  rw [Finset.sum_congr rfl hhalf, filter_parent_eq_children h ht hp,
    Finset.sum_pair (ht.internal p hlo hhi).2.different, add_halves]

/-- All nodes but the root weigh as much as all internal nodes. -/
theorem sum_nodeWeight_erase_root :
    ∑ i ∈ (treeNodes s).erase s.root.toNat, nodeWeight s i =
      ∑ p ∈ treeInternals s, nodeWeight s p := by
  have hmaps : ∀ i ∈ (treeNodes s).erase s.root.toNat,
      nodeParent s.cfg s.arena i ∈ treeInternals s := by
    intro i hi
    obtain ⟨hr, hm⟩ := Finset.mem_erase.1 hi
    have hlink := ht.linked i ((mem_treeNodes h ht).1 hm) hr
    exact mem_treeInternals.2 ⟨hlink.internal, hlink.allocated⟩
  rw [← Finset.sum_fiberwise_of_maps_to hmaps]
  exact Finset.sum_congr rfl fun p hp => sum_children_nodeWeight h ht hp

/-- The leaves weigh as much as the root. -/
theorem sum_treeSymbols_nodeWeight : ∑ i ∈ treeSymbols s, nodeWeight s i = 1 := by
  have hroot : s.root.toNat ∈ treeNodes s := (mem_treeNodes h ht).2 ht.root_materialised
  have hsplit := Finset.sum_erase_add (treeNodes s) (nodeWeight s) hroot
  rw [sum_nodeWeight_erase_root h ht, nodeWeight_root ht, treeNodes,
    Finset.sum_union (disjoint_symbols_internals s)] at hsplit
  linarith

end Kraft

/-- Settles O38: with two or more active leaves each code contributes the weight of its leaf, and the
leaves weigh as much as the root; with one, its code has one bit. -/
theorem codesMeetKraftsEquality : Obligations.CodesMeetKraftsEquality := by
  intro s code h he hroot hx
  have ht : HasTree s := (h.tree.resolve_left fun hn => hroot hn.root).2
  have hterm : ∀ i ∈ treeSymbols s, (1 / 2 : ℚ) ^ (code i).length =
      if s.nleaf.toNat = 1 then 1 / 2 else nodeWeight s i := by
    intro i hi
    obtain ⟨hlt, hm⟩ := mem_treeSymbols.1 hi
    obtain ⟨d, hd⟩ := hx i hlt (materialised_iff_freq.1 hm)
    rw [(hasCode_of_exec_path he hd).half_pow_length h, h.toNat_ofNat_of_materialised hm]
  calc _ = ∑ i ∈ treeSymbols s, (1 / 2 : ℚ) ^ (code i).length := rfl
    _ = ∑ i ∈ treeSymbols s, if s.nleaf.toNat = 1 then 1 / 2 else nodeWeight s i :=
      Finset.sum_congr rfl hterm
    _ = if s.nleaf.toNat = 1 then 1 / 2 else 1 := by
      split
      · next hone => rw [Finset.sum_const, card_treeSymbols ht, hone, one_smul]
      · exact sum_treeSymbols_nodeWeight h ht

end Sys2Proof.Machine
end

section
/-!
PROOFS. The family 44_bit_packer.md: the packing function bit by bit (R113), ABIT appends one bit or
faults (R110), FLUSH packs the bits and empties the buffer (R111), BSIZE reports the packed size (R112).
-/

namespace Sys2Proof.Machine

/-! ## The packing function (R113) -/

theorem byteCount_eq_shift (n : Nat) : byteCount n = (n + 7) >>> 3 :=
  (Nat.shiftRight_eq_div_pow (n + 7) 3).symm

theorem pack_getD {bits : List Bool} {k : Nat} (hk : k < byteCount bits.length) :
    (pack bits).getD k 0 = packByte bits k := by
  have hlt : k < (pack bits).length := hk.trans_eq (pack_length bits).symm
  rw [List.getD_eq_getElem _ _ hlt, pack_getElem bits k hlt]

/-- Settles O42: each byte holds its eight bits with the first on top, and past the end of the sequence
a bit reads as 0. -/
theorem packPlacesTheFirstBitOnTop : Obligations.PackPlacesTheFirstBitOnTop := by
  intro bits
  rw [← byteCount_eq_shift]
  refine ⟨pack_length bits, fun k j hk hj => ?_⟩
  rw [pack_getD hk, packByte_bit bits k j hj]
  split
  · rfl
  · next hend => exact List.getD_eq_default _ _ (Nat.not_lt.1 hend)

/-! ## The words of ABIT (R110) -/

/-- A well-formed word of ABIT has `z` = 0, `b` = 0 and a bit in `a`. -/
theorem fields_of_wellFormed_abitWord {c : Config} {w : Word} (h : WordWellFormed c w)
    (ho : fieldOp w = 0x50) : fieldZ w = 0 ∧ fieldB w = 0 ∧ (fieldA w).toNat < 2 := by
  obtain ⟨i, hi, hop⟩ := exists_decode_of_wellFormed (o := .abit) h ho
  obtain ⟨hz, -, ha, hb, hw⟩ := decode_ok_iff_fields.1 hi
  cases i with
  | abit => exact ⟨hz, hb, ha ▸ bitOk_iff.1 hw⟩
  | _ => exact nomatch hop

/-! ## The flag BITS (R34) -/

theorem flagBits_eq_true (s : State) : flagBits s = true ↔ s.bits ≠ [] := by
  simp [flagBits]

/-! ## What ABIT, FLUSH and BSIZE answer (R110 to R112) -/

theorem exec_abit_full {s : State} {bit : Index} (he : s.err = 0) (hb : bit.toNat < 2)
    (hl : s.bits.length = s.cfg.bitbufCap) :
    exec (.abit bit) s = .next (faulted .bitBufferFull s) :=
  (guarded_run he (bitOk_iff.2 hb)).trans (if_pos hl)

theorem exec_abit_append {s : State} {bit : Index} (he : s.err = 0) (hb : bit.toNat < 2)
    (hl : s.bits.length ≠ s.cfg.bitbufCap) :
    exec (.abit bit) s = .next (respond { } { s with bits := s.bits ++ [bitOf bit] }) :=
  (guarded_run he (bitOk_iff.2 hb)).trans (if_neg hl)

theorem exec_flush {s : State} (he : s.err = 0) :
    exec .flush s =
      .next (respond { d := BitVec.ofNat 32 (pack s.bits).length, bytes := pack s.bits }
        { s with bits := [] }) :=
  guarded_run he rfl

theorem exec_bsize {s : State} (he : s.err = 0) :
    exec .bsize s = .next (respond { d := BitVec.ofNat 32 (byteCount s.bits.length) } s) :=
  guarded_run he rfl

/-- A full buffer packs to fewer than 2^32 bytes, so the response's `d` holds the size (R112). -/
theorem packedSize_toNat {c : Config} (hc : c.WellFormed) {n : Nat} (hn : n ≤ c.bitbufCap) :
    (BitVec.ofNat 32 (byteCount n)).toNat = byteCount n := by
  obtain ⟨-, -, -, -, -, hcap⟩ := c.wellFormed_iff.1 hc
  rw [BitVec.toNat_ofNat, byteCount]
  omega

/-! ## The statements -/

/-- Settles O40: by the room in the buffer. -/
theorem abitAppendsOneBit : Obligations.AbitAppendsOneBit := by
  intro s _ he
  refine ⟨fun w ho hz hb ha => ?_, fun w ho hbad => ?_, fun bit hbit hl => ?_, fun hl => ?_⟩
  · exact decode_ok_iff_fields.2 ⟨hz, ho, rfl, hb, bitOk_iff.2 ha⟩
  · refine raisesIllegal_of_not_wellFormed he fun hwf => ?_
    obtain ⟨hz, hb, ha⟩ := fields_of_wellFormed_abitWord hwf ho
    exact hbad.elim (· hz) (Or.elim · (· hb) (Nat.not_le.2 ha))
  · exact exec_abit_full he hbit hl
  · exact ⟨exec_abit_append he (by decide) hl, exec_abit_append he (by decide) hl,
      fun b => (flagBits_eq_true _).2 (List.concat_ne_nil b s.bits)⟩

/-- Settles O41: FLUSH runs in every state without a fault. -/
theorem flushPacksAndEmpties : Obligations.FlushPacksAndEmpties := by
  intro s _ he
  refine ⟨decode_ok_iff_encode.2 ⟨rfl, rfl⟩, fun w ho hbad => ?_, exec_flush he, rfl⟩
  exact raisesIllegal_of_plainWord he (by simp [ho]) hbad

/-- Settles O43: FLUSH packs as many bytes as BSIZE counts. -/
theorem bsizeReportsThePackedSize : Obligations.BsizeReportsThePackedSize := by
  intro s hc he hl
  refine ⟨decode_ok_iff_encode.2 ⟨rfl, rfl⟩, fun w ho hbad => ?_, _, exec_bsize he, ?_,
    fun t r hx hr => ?_⟩
  · exact raisesIllegal_of_plainWord he (by simp [ho]) hbad
  · rw [packedSize_toNat hc hl, byteCount_eq_shift]
  · cases (exec_flush he).symm.trans hx
    cases hr
    rw [pack_length]

end Sys2Proof.Machine
end

section
/-!
PROOFS. The family 45_encoder_pseudo.md: ACCUMULATE counts every byte (R120), APPENDBITS appends its
sequence (R121), ENCODE of nothing faults (R124), and ENCODE of an input raises no fault and gives bytes
that walk back to it (R122, R123).
-/

namespace Sys2Proof.Machine

/-! ## ACCUMULATE (R120) -/

/-- What ACCUMULATE of the bytes leaves: `t` is `s` with each byte counted. -/
structure Counted (s : State) (bytes : List Index) (t : State) : Prop where
  frame : { t with hist := s.hist, total := s.total, response := s.response } = s
  hist : ∀ i, (histGet t i).toNat =
    (histGet s i).toNat + bytes.countP fun b => decide (b.toNat = i)
  total : t.total.toNat = s.total.toNat + bytes.length

theorem counted_nil (s : State) : Counted s [] s := ⟨rfl, fun _ => rfl, rfl⟩

/-- One ACC that executes, and then the rest. -/
theorem Counted.cons {s t : State} (h : Inv s) (ht : s.total.toNat ≠ s.cfg.freqMax) {b : Index}
    {bytes : List Index} (hrest : Counted (respond { } (accumulate b.toNat s)) bytes t) :
    Counted s (b :: bytes) t := by
  obtain ⟨hcount, htotal⟩ := h.accumulate_counts ht b.toNat
  have hcount' : ∀ i, (histGet (respond { } (accumulate b.toNat s)) i).toNat =
      (histGet s i).toNat + if i = b.toNat then 1 else 0 := hcount
  refine ⟨?_, fun i => ?_, ?_⟩
  · exact congrArg (fun u : State =>
      { u with hist := s.hist, total := s.total, response := s.response }) hrest.frame
  · rw [hrest.hist, hcount', List.countP_cons]
    simp only [decide_eq_true_eq, eq_comm (a := i)]
    omega
  · rw [hrest.total, respond_total, htotal, List.length_cons]
    omega

/-- ACCUMULATE of symbols whose number fits beside TOTAL: no ACC finds TOTAL at its largest. -/
theorem runAll_accumulateSeq {s : State} {bytes : List Index} (h : Inv s) (he : s.err = 0)
    (hsym : ∀ b ∈ bytes, b.toNat < s.cfg.n) (hfit : s.total.toNat + bytes.length ≤ s.cfg.freqMax) :
    ∃ t, runAll (accumulateSeq bytes) s = .next t ∧ Counted s bytes t := by
  induction bytes generalizing s with
  | nil => exact ⟨s, rfl, counted_nil s⟩
  | cons b bytes ih =>
    obtain ⟨hb, hsyms⟩ := List.forall_mem_cons.1 hsym
    rw [List.length_cons] at hfit
    have ht : s.total.toNat ≠ s.cfg.freqMax := by omega
    have hx := exec_acc_accumulate he hb ht
    have htotal := (h.accumulate_counts ht b.toNat).2
    obtain ⟨t, hrun, hrest⟩ := ih (h.exec hx) he hsyms (by
      rw [respond_total, htotal, respond_cfg, accumulate_cfg]
      omega)
    refine ⟨t, ?_, hrest.cons h ht⟩
    rw [accumulateSeq, List.map_cons, runAll_cons, hx, andThen_next]
    exact hrun

/-- Settles O44: by induction on the bytes, since TOTAL stays below its largest value until the last
is counted. -/
theorem accumulateCountsEveryByte : Obligations.AccumulateCountsEveryByte := by
  intro s bytes h he hsym hfit
  obtain ⟨t, hrun, hframe, hhist, htotal⟩ := runAll_accumulateSeq h he hsym hfit
  exact ⟨t, hrun, hframe, hhist, htotal⟩

/-! ## APPENDBITS (R121) -/

@[simp] theorem bitOf_bitOperand (b : Bool) : bitOf (bitOperand b) = b := by cases b <;> rfl

theorem bitOperand_lt (b : Bool) : (bitOperand b).toNat < 2 := by cases b <;> decide

/-- APPENDBITS of a sequence that fits: no ABIT finds the buffer full. -/
theorem runAll_appendBitsSeq {s : State} {seq : List Bool} (he : s.err = 0)
    (hfit : s.bits.length + seq.length ≤ s.cfg.bitbufCap) :
    ∃ r, runAll (appendBitsSeq seq) s = .next { s with bits := s.bits ++ seq, response := r } := by
  induction seq generalizing s with
  | nil => exact ⟨s.response, by rw [List.append_nil]; rfl⟩
  | cons b seq ih =>
    rw [List.length_cons] at hfit
    have hx := exec_abit_append he (bitOperand_lt b) (show s.bits.length ≠ s.cfg.bitbufCap by omega)
    rw [bitOf_bitOperand] at hx
    obtain ⟨r, hrun⟩ := ih (s := respond { } { s with bits := s.bits ++ [b] }) he (by
      rw [respond_bits, List.length_append, List.length_singleton]
      exact (Nat.add_right_comm _ _ _).trans_le hfit)
    refine ⟨r, ?_⟩
    rw [appendBitsSeq, List.map_cons, runAll_cons, hx, andThen_next, List.append_cons s.bits b seq]
    exact hrun

/-- Settles O45: by induction on the sequence, since the buffer has room until the last bit is in it. -/
theorem appendBitsAppendsInOrder : Obligations.AppendBitsAppendsInOrder := by
  intro s seq he hfit
  obtain ⟨r, hrun⟩ := runAll_appendBitsSeq he hfit
  exact ⟨_, hrun, rfl, rfl⟩

/-! ## ENCODE of nothing (R124) -/

/-- Settles O46: with no count BUILD raises EmptyAlphabet, and the faulted state refuses FLUSH. -/
theorem encodeOfNothingFaults : Obligations.EncodeOfNothingFaults := by
  intro s _ he h0
  have hbuild := exec_build_emptyAlphabet he (activeLeaves_eq_nil h0)
  have hflush : exec .flush (faulted .emptyAlphabet s) =
      .next (refusedState (faulted .emptyAlphabet s)) :=
    exec_faulted (FaultKind.code_ne_zero .emptyAlphabet) nofun nofun
  calc encodeBytes [] s
      = andThen (exec .build s) (exec .flush) := rfl
    _ = .next (refusedState (faulted .emptyAlphabet s)) := by rw [hbuild, andThen_next, hflush]
    _ = .next { s with err := 2, response := some { err := 2 } } := rfl

/-! ## The codes that EMIT appends (R122) -/

/-- The code of a symbol of the tree. -/
def symbolCode (s : State) (sym : Index) : List Bool := (codeOf s sym).toOption.getD []

theorem HasCode.symbolCode_eq {s : State} {sym : Index} {code : List Bool}
    (h : HasCode s sym code) : symbolCode s sym = code := by
  rw [symbolCode, h.eq]
  rfl

/-- A code is a matter of the configuration and the arena. -/
theorem HasCode.congr {s t : State} {sym : Index} {code : List Bool} (h : HasCode s sym code)
    (hc : t.cfg = s.cfg) (ha : t.arena = s.arena) : HasCode t sym code where
  symbol := hc ▸ h.symbol
  active := by rw [arenaGet_eq, hc, ha]; exact h.active
  eq := (codeOf_congr hc ha sym).trans h.eq

/-- Every symbol of the tree has its code, of at most N bits (43_code_deriver.md R101). -/
theorem Inv.hasCode_symbolCode {s : State} (h : Inv s) {sym : Index} (hs : sym.toNat < s.cfg.n)
    (hf : (arenaGet s sym.toNat).freq ≠ 0) :
    HasCode s sym (symbolCode s sym) ∧ (symbolCode s sym).length ≤ s.cfg.n := by
  obtain ⟨acc, -, -, hlen, hcode⟩ := h.exists_hasCode hs hf
  rw [hcode.symbolCode_eq]
  refine ⟨hcode, ?_⟩
  split
  · exact (s.cfg.wellFormed_iff.1 h.cfg).1
  · rwa [List.length_reverse]

/-- Codes of at most `n` bits take at most `n` bits a symbol. -/
theorem length_flatMap_le {code : Index → List Bool} {syms : List Index} {n : Nat}
    (h : ∀ sym ∈ syms, (code sym).length ≤ n) : (syms.flatMap code).length ≤ syms.length * n := by
  rw [List.length_flatMap]
  simpa using List.sum_le_card_nsmul (syms.map fun sym => (code sym).length) n (by simpa using h)

/-! ## EMIT (R122) -/

theorem appendResponse_of_err_eq_zero {s : State} {r : Response} (hr : s.response = some r)
    (he : r.err = 0) : appendResponse s = runAll (appendBitsSeq r.code) s := by
  rw [appendResponse, hr]
  exact if_pos he

/-- EMIT of a symbol of the tree whose code fits appends the code. -/
theorem HasCode.emit_eq {s : State} {sym : Index} {code : List Bool} (h : HasCode s sym code)
    (he : s.err = 0) (hfit : s.bits.length + code.length ≤ s.cfg.bitbufCap) :
    ∃ r, emit sym s = .next { s with bits := s.bits ++ code, response := r } := by
  obtain ⟨r, hrun⟩ := runAll_appendBitsSeq (seq := code)
    (s := respond { d := BitVec.ofNat 32 code.length, code := code } s) he hfit
  refine ⟨r, ?_⟩
  rw [emit, h.exec_path he, andThen_next, appendResponse_of_err_eq_zero (respond_response _ s) rfl]
  exact hrun

/-- One EMIT a symbol appends the codes in order. -/
theorem emitAll_eq {s : State} {code : Index → List Bool} {syms : List Index} (he : s.err = 0)
    (hcode : ∀ sym ∈ syms, HasCode s sym (code sym))
    (hfit : s.bits.length + (syms.flatMap code).length ≤ s.cfg.bitbufCap) :
    ∃ r, emitAll syms s =
      .next { s with bits := s.bits ++ syms.flatMap code, response := r } := by
  induction syms generalizing s with
  | nil => exact ⟨s.response, by rw [List.flatMap_nil, List.append_nil]; rfl⟩
  | cons sym syms ih =>
    obtain ⟨hsym, hsyms⟩ := List.forall_mem_cons.1 hcode
    rw [List.flatMap_cons, List.length_append, ← Nat.add_assoc] at hfit
    obtain ⟨r1, hemit⟩ := hsym.emit_eq he ((Nat.le_add_right _ _).trans hfit)
    obtain ⟨r, hrun⟩ := ih (s := { s with bits := s.bits ++ code sym, response := r1 }) he
      (fun sym' hmem => (hsyms sym' hmem).congr rfl rfl) (by rwa [List.length_append])
    refine ⟨r, ?_⟩
    rw [emitAll_cons, hemit, andThen_next, List.flatMap_cons, ← List.append_assoc]
    exact hrun

/-- From an empty buffer, EMITs and a FLUSH answer the packed codes and leave the buffer empty. -/
theorem emitAll_flush {s : State} {code : Index → List Bool} {syms : List Index} (he : s.err = 0)
    (hbits : s.bits = []) (hcode : ∀ sym ∈ syms, HasCode s sym (code sym))
    (hfit : (syms.flatMap code).length ≤ s.cfg.bitbufCap) :
    andThen (emitAll syms s) (exec .flush) =
      .next (respond
        { d := BitVec.ofNat 32 (pack (syms.flatMap code)).length, bytes := pack (syms.flatMap code) }
        { s with bits := [] }) := by
  obtain ⟨r, hemit⟩ := emitAll_eq he hcode (by rwa [hbits, List.length_nil, Nat.zero_add])
  rw [hbits, List.nil_append] at hemit
  rw [hemit, andThen_next]
  exact exec_flush (s := { s with bits := syms.flatMap code, response := r }) he

/-! ## ENCODE (R123) -/

theorem Counted.cfg_eq {s t : State} {bytes : List Index} (h : Counted s bytes t) :
    t.cfg = s.cfg :=
  (congrArg State.cfg h.frame :)

theorem Counted.err_eq {s t : State} {bytes : List Index} (h : Counted s bytes t) :
    t.err = s.err :=
  (congrArg State.err h.frame :)

theorem Counted.bits_eq {s t : State} {bytes : List Index} (h : Counted s bytes t) :
    t.bits = s.bits :=
  (congrArg State.bits h.frame :)

/-- A byte of the input has a count. -/
theorem Counted.histGet_ne_zero {s t : State} {bytes : List Index} (h : Counted s bytes t)
    {b : Index} (hb : b ∈ bytes) : histGet t b.toNat ≠ 0 := by
  have hpos : 0 < bytes.countP fun x => decide (x.toNat = b.toNat) :=
    List.countP_pos_iff.2 ⟨b, hb, decide_eq_true rfl⟩
  intro h0
  have hzero : (histGet t b.toNat).toNat = 0 := congrArg BitVec.toNat h0
  have hcount := h.hist b.toNat
  omega

theorem Built.err_eq {s t : State} (hb : Built s t) : t.err = s.err :=
  (congrArg State.err hb.frame :)

theorem Built.bits_eq {s t : State} (hb : Built s t) : t.bits = s.bits :=
  (congrArg State.bits hb.frame :)

/-- A symbol with a count is in the tree. -/
theorem Built.freq_ne_zero {s t : State} (hb : Built s t) {i : Nat} (hi : i < s.cfg.n)
    (hf : histGet s i ≠ 0) : (arenaGet t i).freq ≠ 0 := by
  refine materialised_iff_freq.1 ?_
  rw [hb.cfg_eq, Materialised, hb.leaf_freq i hi]
  exact mt (BitVec.eq_of_toNat_eq (y := (0 : Freq))) hf

/-- What ACCUMULATE and BUILD of an input leave for its EMITs: a tree with each of its bytes, and the
buffer as it was. -/
structure InputBuilt (s : State) (bytes : List Index) (t : State) : Prop where
  inv : Inv t
  cfg : t.cfg = s.cfg
  err : t.err = 0
  bits : t.bits = s.bits
  active : ∀ b ∈ bytes, (arenaGet t b.toNat).freq ≠ 0

/-- A byte has a count after ACCUMULATE, so BUILD does not fault and makes it a symbol of the tree. -/
theorem accumulate_build {s : State} {bytes : List Index} (h : Inv s) (he : s.err = 0)
    (hne : bytes ≠ []) (hsym : ∀ b ∈ bytes, b.toNat < s.cfg.n)
    (hfit : s.total.toNat + bytes.length ≤ s.cfg.freqMax) :
    ∃ u t, runAll (accumulateSeq bytes) s = .next u ∧ exec .build u = .next t ∧
      InputBuilt s bytes t := by
  obtain ⟨u, hacc, hu⟩ := runAll_accumulateSeq h he hsym hfit
  have hinv : Inv u := runAll_preserves (fun _ _ _ h hx => h.exec hx) h hacc
  have hsym' : ∀ b ∈ bytes, b.toNat < u.cfg.n := fun b hb => hu.cfg_eq ▸ hsym b hb
  obtain ⟨b, hb⟩ := List.exists_mem_of_ne_nil bytes hne
  have hactive : activeLeaves u ≠ [] :=
    (activeLeaves_ne_nil_iff u).2 ⟨b.toNat, hsym' b hb, hu.histGet_ne_zero hb⟩
  obtain ⟨t, hbuild, ht⟩ := execBuild_built hinv (hu.err_eq.trans he) hactive
  exact ⟨u, t, hacc, hbuild,
    { inv := hinv.built ht
      cfg := ht.cfg_eq.trans hu.cfg_eq
      err := ht.err_eq.trans (hu.err_eq.trans he)
      bits := ht.bits_eq.trans hu.bits_eq
      active := fun b hb => ht.freq_ne_zero (hsym' b hb) (hu.histGet_ne_zero hb) }⟩

/-- Settles O47: after ACCUMULATE and BUILD every byte has a code of at most N bits, so the codes fit
the buffer; FLUSH packs them, and they walk back to the bytes. -/
theorem encodeRoundTrips : Obligations.EncodeRoundTrips := by
  intro s bytes h he h0 hbits hne hsym hlen hroom
  have htotal : s.total.toNat = 0 := congrArg BitVec.toNat h0
  obtain ⟨u, t, hacc, hbuild, ht⟩ :=
    accumulate_build h he hne hsym (by rw [htotal, Nat.zero_add]; exact hlen)
  have hcodes := fun b hb => ht.inv.hasCode_symbolCode (ht.cfg ▸ hsym b hb) (ht.active b hb)
  have hcode : ∀ b ∈ bytes, HasCode t b (symbolCode t b) := fun b hb => (hcodes b hb).1
  have hfit : (bytes.flatMap (symbolCode t)).length ≤ t.cfg.bitbufCap :=
    calc (bytes.flatMap (symbolCode t)).length
        ≤ bytes.length * t.cfg.n := length_flatMap_le fun b hb => (hcodes b hb).2
      _ ≤ t.cfg.bitbufCap := by rw [ht.cfg]; exact hroom
  have hemit := emitAll_flush ht.err (ht.bits.trans hbits) hcode hfit
  rw [encodeBytes, hacc, andThen_next, hbuild, andThen_next, hemit]
  refine ⟨_, _, rfl, ht.err, rfl, rfl, ?_⟩
  refine Eq.trans (walkSymbols_congr (s := t) (t := respond _ { t with bits := [] })
    rfl rfl rfl _ _) ?_
  rw [unpack_pack]
  exact walkSymbols_codes ht.inv (symbolCode t) bytes hcode _

end Sys2Proof.Machine
end

section
/-!
PROOFS. The family 46_system.md: RESET and the hardware reset clear the block (R128, R130), and RDSR
reads each status register (R129), all three in the faulted state as well.
-/

namespace Sys2Proof.Machine

/-! ## The words of RESET and RDSR (R128, R129) -/

/-- What the block does with an ill-formed word, faulted or not (R58, R140). -/
theorem raisesIllegal_and_isRefused_of_not_wellFormed {s : State} {w : Word}
    (h : ¬ WordWellFormed s.cfg w) :
    (s.err = 0 → RaisesIllegal s w) ∧ (s.err ≠ 0 → IsRefused s w) :=
  ⟨fun he => raisesIllegal_of_not_wellFormed he h, fun he => runWord_refused he fun hw => h hw.1⟩

/-- A well-formed RDSR word has `z` = 0, `b` = 0 and a register number in `a`. -/
theorem fields_of_wellFormed_rdsrWord {c : Config} {w : Word} (h : WordWellFormed c w)
    (ho : fieldOp w = 0x02) : fieldZ w = 0 ∧ fieldB w = 0 ∧ (fieldA w).toNat < 8 := by
  obtain ⟨hz, -, -, hb, hw⟩ := decode_ok_iff_fields.1 (decode_of_wellFormed_rdsr h ho)
  exact ⟨hz, hb, statusNumberOk_iff.1 hw⟩

/-! ## The cleared block (R37) -/

/-- The block of a well-formed configuration is cleared by RESET: N fits an index, so NNEXT is N. -/
theorem isCleared_clearBlock {s : State} (hc : s.cfg.WellFormed) : IsCleared (clearBlock s) where
  hist _ := rfl
  parent _ := rfl
  left _ := rfl
  right _ := rfl
  freq _ := rfl
  queue := rfl
  bits := rfl
  err := rfl
  root := rfl
  nleaf := rfl
  nnext := s.cfg.toIndex_toNat hc <| s.cfg.index_lt hc <| by
    have := (s.cfg.wellFormed_iff.1 hc).1
    omega
  total := rfl

/-- The reset values say nothing of the response. -/
theorem IsCleared.with_response {s : State} (h : IsCleared s) (r : Option Response) :
    IsCleared { s with response := r } :=
  { h with }

/-! ## The status registers (R34, R35) -/

/-- The four flags of STATUS as a number. -/
theorem toNat_flags (bits qempty tree fault : Bool) :
    ((0 : BitVec 28) ++ BitVec.ofBool bits ++ BitVec.ofBool qempty ++ BitVec.ofBool tree ++
      BitVec.ofBool fault).toNat =
      (if fault then 1 else 0) + (if tree then 2 else 0) + (if qempty then 4 else 0) +
        (if bits then 8 else 0) := by
  revert bits qempty tree fault
  decide

/-- STATUS as a number, by the state that its flags are derived from. -/
theorem statusWord_toNat (s : State) :
    (statusWord s).toNat =
      (if s.err ≠ 0 then 1 else 0) + (if s.root ≠ s.cfg.none then 2 else 0) +
        (if s.queue.length = 0 then 4 else 0) + (if s.bits.length ≠ 0 then 8 else 0) := by
  rw [statusWord, toNat_flags]
  simp only [flagFault, flagTree, flagQEmpty, flagBits, decide_eq_true_eq]

/-- Of the four flags only QEMPTY is set in a cleared block. -/
theorem IsCleared.statusWord_eq {s : State} (h : IsCleared s) : statusWord s = 4 := by
  apply BitVec.eq_of_toNat_eq
  rw [statusWord_toNat, h.err, h.root, h.queue, h.bits]
  simp

/-- Each status register as a number: the two lengths fit 32 bits, every other register its width. -/
theorem statusRegister_toNat {s : State} (hqueue : s.queue.length < 2 ^ 32)
    (hbits : s.bits.length < 2 ^ 32) (n : Index) :
    (statusRegister s n).toNat =
      if n.toNat = 0 then
        (if s.err ≠ 0 then 1 else 0) + (if s.root ≠ s.cfg.none then 2 else 0) +
          (if s.queue.length = 0 then 4 else 0) + (if s.bits.length ≠ 0 then 8 else 0)
      else if n.toNat = 1 then s.err.toNat
      else if n.toNat = 2 then s.root.toNat
      else if n.toNat = 3 then s.nleaf.toNat
      else if n.toNat = 4 then s.nnext.toNat
      else if n.toNat = 5 then s.queue.length
      else if n.toNat = 6 then s.total.toNat
      else s.bits.length := by
  unfold statusRegister
  split
  case h_1 h => rw [h]; exact statusWord_toNat s
  case h_2 h | h_3 h | h_4 h | h_5 h => rw [h]; exact BitVec.toNat_setWidth_of_le (by decide)
  case h_6 h => rw [h]; exact Nat.mod_eq_of_lt hqueue
  case h_7 h => rw [h]; rfl
  case h_8 h0 h1 h2 h3 h4 h5 h6 =>
    rw [if_neg h0, if_neg h1, if_neg h2, if_neg h3, if_neg h4, if_neg h5, if_neg h6]
    exact Nat.mod_eq_of_lt hbits

/-- A queue within its capacity has a length of 32 bits. -/
theorem queueCap_lt {c : Config} (hc : c.WellFormed) : c.queueCap < 2 ^ 32 := by
  have := c.arena_lt hc
  have := c.pow_idx_le hc
  unfold Config.queueCap
  omega

/-- What RDSR of a status register answers, in every state (R129). -/
theorem exec_rdsr (s : State) {n : Index} (hn : n.toNat < 8) :
    exec (.rdsr n) s = .next (respond { d := statusRegister s n } s) :=
  if_pos (statusNumberOk_iff.2 hn)

/-! ## The statements -/

/-- Settles O22: RDSR asks for no FAULT flag; the number it answers is the register's, in which the
lengths of the queue and of the bit buffer are not cut since their capacities fit 32 bits. -/
theorem rdsrReadsTheStatusRegisters : Obligations.RdsrReadsTheStatusRegisters := by
  intro s n hc hn hqueue hbits
  have hqueue32 : s.queue.length < 2 ^ 32 := hqueue.trans_lt (queueCap_lt hc)
  have hbits32 : s.bits.length < 2 ^ 32 := by
    obtain ⟨-, -, -, -, -, hcap⟩ := s.cfg.wellFormed_iff.1 hc
    omega
  refine ⟨fun w ho hz hb ha => ?_, fun w ho hbad => ?_,
    ⟨_, exec_rdsr s hn, statusRegister_toNat hqueue32 hbits32 n⟩⟩
  · exact decode_ok_iff_fields.2 ⟨hz, ho, ha, hb, statusNumberOk_iff.2 hn⟩
  · refine raisesIllegal_and_isRefused_of_not_wellFormed fun hwf => ?_
    obtain ⟨hz, hb, ha⟩ := fields_of_wellFormed_rdsrWord hwf ho
    exact hbad.elim (· hz) (Or.elim · (· hb) (Nat.not_le.2 ha))

/-- Settles O10: the step handles the signal in the state without it, and both resets leave the cleared
block, with and without a response. -/
theorem hardwareResetClearsTheBlock : Obligations.HardwareResetClearsTheBlock := by
  intro s rest hc hp
  have hclear : IsCleared (clearBlock { s with pending := rest }) := isCleared_clearBlock hc
  exact ⟨_, step_event hc hp, hclear.with_response none, rfl, rfl, rfl, _, rfl, rfl⟩

/-- Settles O21: RESET asks for no FAULT flag, and its effect is the cleared block. -/
theorem resetCommandClearsTheBlock : Obligations.ResetCommandClearsTheBlock := by
  intro s hc
  have hclear : IsCleared (respond { } (clearBlock s)) :=
    (isCleared_clearBlock hc).with_response _
  refine ⟨decode_ok_iff_encode.2 ⟨rfl, rfl⟩, fun w ho hbad => ?_,
    ⟨_, rfl, hclear, hclear.statusWord_eq, rfl, rfl, rfl⟩⟩
  refine raisesIllegal_and_isRefused_of_not_wellFormed fun hwf => ?_
  obtain ⟨hz, ha, hb⟩ := fields_of_wellFormed_plainWord hwf (by simp [ho])
  exact hbad.elim (· hz) (Or.elim · (· ha) (· hb))

end Sys2Proof.Machine
end

section
/-!
PROOFS. The families 60_exceptions.md and 70_reset_and_hazards.md: a fault writes ERR and the response
and nothing else (R135, R139), ERR keeps the first fault until a reset (R142), and from every state of
the invariant every event completes (R168).
-/

namespace Sys2Proof.Machine

/-! ## What a faulting command leaves (R135, R139) -/

/-- A command that executes with no fault latched latches none. -/
theorem Effect.err_eq_zero {i : Instr} {s t : State} (h : Effect i s t) (he : s.err = 0) :
    t.err = 0 := by
  cases i with
  | reset => subst h; rfl
  | rdsr | hrd | qempty | nrd | flush | bsize => subst h; exact he
  | acc | qpush | abit => obtain ⟨-, rfl⟩ := h; exact he
  | qpop => obtain ⟨it, rest, -, rfl⟩ := h; exact he
  | build => obtain ⟨-, root, w, -, rfl⟩ := h; exact he
  | path => obtain ⟨-, code, -, rfl⟩ := h; exact he

/-- The two ways a command latches a fault: it is ill formed, or it raises its own. -/
theorem exec_fault_cases {i : Instr} {s t : State} (he : s.err = 0) (hx : exec i s = .next t)
    (ht : t.err ≠ 0) :
    (¬ i.WellFormed s.cfg ∧ t = faulted .illegalCommand s) ∨
      ∃ k, OwnFault i s k ∧ t = faulted k s := by
  rcases exec_cases hx with ⟨hs, -, -⟩ | ⟨-, hw, rfl⟩ | ⟨-, -, hk⟩ | ⟨-, -, heff⟩
  · exact absurd he hs
  · exact .inl ⟨hw, rfl⟩
  · exact .inr hk
  · exact absurd (heff.err_eq_zero he) ht

/-- A word that latches a fault leaves fault entry's state, whether it decodes or not. -/
theorem runWord_eq_faulted {w : Word} {s t : State} (he : s.err = 0) (hx : runWord w s = .next t)
    (ht : t.err ≠ 0) : ∃ k, t = faulted k s := by
  by_cases hwf : WordWellFormed s.cfg w
  · obtain ⟨i, hi⟩ := (wordWellFormed_iff s.cfg w).1 hwf
    rcases exec_fault_cases he ((runWord_ok hi).symm.trans hx) ht with ⟨-, rfl⟩ | ⟨k, -, rfl⟩
    · exact ⟨_, rfl⟩
    · exact ⟨k, rfl⟩
  · cases (raisesIllegal_of_not_wellFormed he hwf).symm.trans hx
    exact ⟨.illegalCommand, rfl⟩

/-- Settles O17: a word that faults leaves fault entry's state, and a well-formed command faults by its
own fault only. -/
theorem faultingCommandChangesNothingElse : Obligations.FaultingCommandChangesNothingElse := by
  refine ⟨fun w s t he hx ht => ?_, fun i s t hw he hx ht => ?_⟩
  · obtain ⟨k, rfl⟩ := runWord_eq_faulted he hx ht
    exact ⟨rfl, (flagFault_eq_true _).2 ht⟩
  · rcases exec_fault_cases he hx ht with ⟨hbad, -⟩ | ⟨k, hk, rfl⟩
    · exact absurd hw hbad
    · cases i with
      | acc | qpush | qpop | build | path | abit => obtain ⟨-, rfl⟩ := hk; rfl
      | _ => exact hk

/-! ## ERR in the faulted state (R140 to R142) -/

/-- In the faulted state only RESET writes ERR: every other command is refused, but for RDSR, which
writes the response alone. -/
theorem exec_err_of_faulted {i : Instr} {s t : State} (he : s.err ≠ 0) (hi : i ≠ .reset)
    (hx : exec i s = .next t) : t.err = s.err := by
  rcases exec_cases hx with ⟨-, -, rfl⟩ | ⟨h0, -⟩ | ⟨h0, -⟩ | ⟨-, h0 | hr | ⟨n, rfl⟩, heff⟩
  · rfl
  · exact absurd h0 he
  · exact absurd h0 he
  · exact absurd h0 he
  · exact absurd hr hi
  · subst heff; rfl

/-- A step in the faulted state that is no reset keeps the latched code. -/
theorem step_err_of_faulted {s t : State} (he : s.err ≠ 0) (hx : step s = .next t)
    (hr : ¬ NextIsReset s) : t.err = s.err := by
  obtain ⟨-, hcases⟩ := step_cases hx
  rcases hcases with ⟨-, rfl⟩ | ⟨rest, hp, -⟩ | ⟨w, rest, hp, ⟨i, hd, hi⟩ | ⟨-, hi⟩⟩
  · rfl
  · exact absurd (.inl (by rw [hp]; rfl)) hr
  · have hne : i ≠ .reset := by
      rintro rfl
      exact hr (.inr ⟨w, by rw [hp]; rfl, hd⟩)
    exact exec_err_of_faulted (s := { s with pending := rest }) he hne hi
  · cases (illegal_of_err_ne_zero (s := { s with pending := rest }) he).symm.trans hi
    rfl

/-- A step that is a reset, by the signal or by the command, leaves the cleared block (R128, R130). -/
theorem step_eq_clearBlock_of_reset {s t : State} (hx : step s = .next t) (hr : NextIsReset s) :
    ∃ rest r, t = { clearBlock { s with pending := rest } with response := r } := by
  obtain ⟨hc, -⟩ := step_cases hx
  rcases hr with hhead | ⟨w, hhead, hd⟩
  · obtain ⟨rest, hp⟩ := List.head?_eq_some_iff.1 hhead
    cases (step_event hc hp).symm.trans hx
    exact ⟨rest, none, rfl⟩
  · obtain ⟨rest, hp⟩ := List.head?_eq_some_iff.1 hhead
    cases (stepRunsTheDecodedCommand s w rest .reset hc hp hd).symm.trans hx
    exact ⟨rest, some { }, rfl⟩

/-- Settles O16: a step that is no reset changes no latched code, and a reset leaves the cleared
block. -/
theorem firstFaultIsKept : Obligations.FirstFaultIsKept := by
  intro s t he hx
  refine ⟨step_err_of_faulted he hx, fun hr => ?_⟩
  obtain ⟨rest, r, rfl⟩ := step_eq_clearBlock_of_reset hx hr
  rfl

/-! ## Every event completes (R158, R168) -/

/-- Every well-formed command answers with a next state. Only BUILD and PATH loop: the merge loop makes
its queue shorter (R87), and in the tree of the invariant a leaf climbs to the root within the walk's
fuel (R89). -/
theorem exists_exec_of_inv {i : Instr} {s : State} (h : Inv s) (he : s.err = 0)
    (hw : i.WellFormed s.cfg) : ∃ t, exec i s = .next t := by
  cases i with
  | reset => exact ⟨_, rfl⟩
  | rdsr n => exact ⟨_, exec_rdsr s (statusNumberOk_iff.1 hw)⟩
  | acc sym =>
    by_cases ht : s.total.toNat = s.cfg.freqMax
    · exact ⟨_, exec_acc_overflow he (symbolOk_iff.1 hw) ht⟩
    · exact ⟨_, exec_acc_accumulate he (symbolOk_iff.1 hw) ht⟩
  | qpush id freq =>
    by_cases hl : s.queue.length = s.cfg.queueCap
    · exact ⟨_, exec_qpush_full id freq he hl⟩
    · exact ⟨_, exec_qpush_push id freq he hl⟩
  | qpop =>
    cases hq : s.queue with
    | nil => exact ⟨_, exec_qpop_empty he hq⟩
    | cons it rest => exact ⟨_, exec_qpop_pop he hq⟩
  | build =>
    by_cases ha : activeLeaves s = []
    · exact ⟨_, exec_build_emptyAlphabet he ha⟩
    · obtain ⟨root, w, hm, -⟩ := build_loop_ends s ha
      exact ⟨_, exec_build_of_mergeLoop he ha hm⟩
  | path sym =>
    have hs := symbolOk_iff.1 hw
    by_cases hf : (arenaGet s sym.toNat).freq = 0
    · exact ⟨_, exec_path_symbolNotInTree he hs hf⟩
    · obtain ⟨acc, -, -, -, hcode⟩ := h.exists_hasCode hs hf
      exact ⟨_, hcode.exec_path he⟩
  | abit bit =>
    by_cases hl : s.bits.length = s.cfg.bitbufCap
    · exact ⟨_, exec_abit_full he (bitOk_iff.1 hw) hl⟩
    · exact ⟨_, exec_abit_append he (bitOk_iff.1 hw) hl⟩
  | hrd | qempty | nrd | flush | bsize => exact ⟨_, guarded_run he hw⟩

/-- In the faulted state a well-formed command answers in every state: it is refused, or it is RESET or
RDSR. -/
theorem exists_exec_of_faulted {i : Instr} {s : State} (he : s.err ≠ 0)
    (hw : i.WellFormed s.cfg) : ∃ t, exec i s = .next t := by
  cases i with
  | reset => exact ⟨_, rfl⟩
  | rdsr n => exact ⟨_, exec_rdsr s (statusNumberOk_iff.1 hw)⟩
  | _ => exact ⟨_, guarded_faulted he⟩

/-- Every word answers with a next state, well formed or not. -/
theorem exists_runWord_of_inv {s : State} (h : Inv s) (w : Word) : ∃ t, runWord w s = .next t := by
  by_cases hwf : WordWellFormed s.cfg w
  · obtain ⟨i, hi⟩ := (wordWellFormed_iff s.cfg w).1 hwf
    obtain ⟨-, -, -, -, hw⟩ := decode_ok_iff_fields.1 hi
    rw [runWord_ok hi]
    by_cases he : s.err = 0
    · exact exists_exec_of_inv h he hw
    · exact exists_exec_of_faulted he hw
  · rw [runWord_of_not_wellFormed hwf]
    rcases illegal_cases s with ⟨-, hx⟩ | ⟨-, hx⟩
    · exact ⟨_, hx⟩
    · exact ⟨_, hx⟩

/-- Settles O9: an empty list of pending events is the first case of `takeEvent`. -/
theorem idleBlockKeepsItsState : Obligations.IdleBlockKeepsItsState :=
  fun _ hc hp => step_idle hc hp

/-- Settles O15: by the event of the step; a word finds the state without it, which meets the invariant
as well. -/
theorem nothingInTheBlockHangs : Obligations.NothingInTheBlockHangs := by
  intro s h
  cases hp : s.pending with
  | nil => exact ⟨s, step_idle h.cfg hp⟩
  | cons e rest =>
    rw [step_event h.cfg hp]
    cases e with
    | hardwareReset => exact ⟨_, rfl⟩
    | command w => exact exists_runWord_of_inv (h.pending rest) w

end Sys2Proof.Machine
end
